-- ==== Sys2Proof/Word.lean ====
section
/-! DEFINITION. The word types of the core (spec/00_scope.md rules R6 and R7). -/

namespace Sys2Proof

/-- A 32-bit word: a register value, an address, a pc value or an assembled immediate (rules R6, R7). -/
abbrev Word := BitVec 32

/-- A byte of memory or of the output stream (rules R19, R21). -/
abbrev Byte := BitVec 8

/-- A register number as an instruction's 5-bit field holds it; every value is a register (rule R11). -/
abbrev RegIdx := BitVec 5

end Sys2Proof
end

