-- ==== Sys2Proof/Syntax.lean ====
section
/-! DEFINITION. The 39 instructions of spec/30_encoding.md rule R58, one constructor per row of
spec/opcode_table.json.

An immediate is held as the decoder yields it: the assembled, sign-extended 32-bit word (rules R52 to R57).
`Instr.wellFormed` says which words an encoding can yield. A shift amount is the 5-bit field `imm[4:0]`
(rules R97 to R99). Fields the spec does not examine (rule R59) are not part of an instruction. -/

namespace Sys2Proof

/-- The instructions (rule R58), in the order of spec/opcode_table.json. -/
inductive Instr where
  | addi  (rd rs1 : RegIdx) (imm : Word)
  | slti  (rd rs1 : RegIdx) (imm : Word)
  | sltiu (rd rs1 : RegIdx) (imm : Word)
  | xori  (rd rs1 : RegIdx) (imm : Word)
  | ori   (rd rs1 : RegIdx) (imm : Word)
  | andi  (rd rs1 : RegIdx) (imm : Word)
  | slli  (rd rs1 : RegIdx) (shamt : BitVec 5)
  | srli  (rd rs1 : RegIdx) (shamt : BitVec 5)
  | srai  (rd rs1 : RegIdx) (shamt : BitVec 5)
  | add   (rd rs1 rs2 : RegIdx)
  | sub   (rd rs1 rs2 : RegIdx)
  | sll   (rd rs1 rs2 : RegIdx)
  | slt   (rd rs1 rs2 : RegIdx)
  | sltu  (rd rs1 rs2 : RegIdx)
  | xor   (rd rs1 rs2 : RegIdx)
  | srl   (rd rs1 rs2 : RegIdx)
  | sra   (rd rs1 rs2 : RegIdx)
  | or    (rd rs1 rs2 : RegIdx)
  | and   (rd rs1 rs2 : RegIdx)
  | lb    (rd rs1 : RegIdx) (imm : Word)
  | lh    (rd rs1 : RegIdx) (imm : Word)
  | lw    (rd rs1 : RegIdx) (imm : Word)
  | lbu   (rd rs1 : RegIdx) (imm : Word)
  | lhu   (rd rs1 : RegIdx) (imm : Word)
  | sb    (rs1 rs2 : RegIdx) (imm : Word)
  | sh    (rs1 rs2 : RegIdx) (imm : Word)
  | sw    (rs1 rs2 : RegIdx) (imm : Word)
  | beq   (rs1 rs2 : RegIdx) (imm : Word)
  | bne   (rs1 rs2 : RegIdx) (imm : Word)
  | blt   (rs1 rs2 : RegIdx) (imm : Word)
  | bge   (rs1 rs2 : RegIdx) (imm : Word)
  | bltu  (rs1 rs2 : RegIdx) (imm : Word)
  | bgeu  (rs1 rs2 : RegIdx) (imm : Word)
  | jal   (rd : RegIdx) (imm : Word)
  | jalr  (rd rs1 : RegIdx) (imm : Word)
  | lui   (rd : RegIdx) (imm : Word)
  | auipc (rd : RegIdx) (imm : Word)
  | ecall
  | ebreak
  deriving DecidableEq, Repr

end Sys2Proof
end

