-- ==== Sys2Proof/WellFormed.lean ====
section
/-! DEFINITION. Which instructions an encoding can yield: the range of each immediate (spec/30_encoding.md rules
R52 to R56). Register numbers and shift amounts are well formed by their type (rule R11). -/

namespace Sys2Proof

/-- `v` is the sign extension of its low `n` bits (`sext_n`, rule R8). -/
def fitsSigned (n : Nat) (v : Word) : Bool := v == (v.setWidth n).signExtend 32

/-- An I- or S-shape immediate: -2048 .. 2047 (rules R52, R53). -/
def wfImm12 (v : Word) : Bool := fitsSigned 12 v

/-- A B-shape immediate: even, -4096 .. 4094 (rule R54). -/
def wfImmB (v : Word) : Bool := fitsSigned 13 v && !v.getLsbD 0

/-- A J-shape immediate: even, -1048576 .. 1048574 (rule R56). -/
def wfImmJ (v : Word) : Bool := fitsSigned 21 v && !v.getLsbD 0

/-- A U-shape immediate: its low 12 bits are zero (rule R55). -/
def wfImmU (v : Word) : Bool := v.setWidth 12 == 0#12

/-- The instruction is the reading of some word (rules R52 to R56). -/
def Instr.wellFormed : Instr → Bool
  | .addi _ _ imm => wfImm12 imm
  | .slti _ _ imm => wfImm12 imm
  | .sltiu _ _ imm => wfImm12 imm
  | .xori _ _ imm => wfImm12 imm
  | .ori _ _ imm => wfImm12 imm
  | .andi _ _ imm => wfImm12 imm
  | .slli _ _ _ => true
  | .srli _ _ _ => true
  | .srai _ _ _ => true
  | .add _ _ _ => true
  | .sub _ _ _ => true
  | .sll _ _ _ => true
  | .slt _ _ _ => true
  | .sltu _ _ _ => true
  | .xor _ _ _ => true
  | .srl _ _ _ => true
  | .sra _ _ _ => true
  | .or _ _ _ => true
  | .and _ _ _ => true
  | .lb _ _ imm => wfImm12 imm
  | .lh _ _ imm => wfImm12 imm
  | .lw _ _ imm => wfImm12 imm
  | .lbu _ _ imm => wfImm12 imm
  | .lhu _ _ imm => wfImm12 imm
  | .sb _ _ imm => wfImm12 imm
  | .sh _ _ imm => wfImm12 imm
  | .sw _ _ imm => wfImm12 imm
  | .beq _ _ imm => wfImmB imm
  | .bne _ _ imm => wfImmB imm
  | .blt _ _ imm => wfImmB imm
  | .bge _ _ imm => wfImmB imm
  | .bltu _ _ imm => wfImmB imm
  | .bgeu _ _ imm => wfImmB imm
  | .jal _ imm => wfImmJ imm
  | .jalr _ _ imm => wfImm12 imm
  | .lui _ imm => wfImmU imm
  | .auipc _ imm => wfImmU imm
  | .ecall => true
  | .ebreak => true

end Sys2Proof
end

