-- ==== Sys2Proof/Decode.lean ====
section
/-! DEFINITION. The decoder and the encoder (spec/30_encoding.md).

Decoding has the spec's two stages. `decodeFields` is the spec's total `Decode` (rule R57): six fields and an
immediate, from every word. `select` is the executor's dispatch tree (spec/40_step_and_dispatch.md rule R85): it
names the instruction the fields select, or rejects by name. `decodeWord` is one after the other. The numeric
encodings are the spec's decision D1 (notes/assumptions/9.md). -/

namespace Sys2Proof

/-! ### Field extraction (rule R50) -/

/-- `opcode = bits[6:0]`. -/
def opcodeField (w : Word) : BitVec 7 := w.extractLsb' 0 7

/-- `rd = bits[11:7]`. -/
def rdField (w : Word) : RegIdx := w.extractLsb' 7 5

/-- `funct3 = bits[14:12]`. -/
def funct3Field (w : Word) : BitVec 3 := w.extractLsb' 12 3

/-- `rs1 = bits[19:15]`. -/
def rs1Field (w : Word) : RegIdx := w.extractLsb' 15 5

/-- `rs2 = bits[24:20]`. -/
def rs2Field (w : Word) : RegIdx := w.extractLsb' 20 5

/-- `funct7 = bits[31:25]`. -/
def funct7Field (w : Word) : BitVec 7 := w.extractLsb' 25 7

/-! ### Immediate assembly (rules R52 to R56) -/

/-- I shape: `sext_12(bits[31:20])` (rule R52). -/
def immI (w : Word) : Word := (w.extractLsb' 20 12).signExtend 32

/-- S shape: `sext_12(bits[31:25], bits[11:7])` (rule R53). -/
def immS (w : Word) : Word := (w.extractLsb' 25 7 ++ w.extractLsb' 7 5).signExtend 32

/-- B shape: `sext_13(bits[31], bits[7], bits[30:25], bits[11:8], 0)` (rule R54). -/
def immB (w : Word) : Word :=
  (w.extractLsb' 31 1 ++ w.extractLsb' 7 1 ++ w.extractLsb' 25 6 ++ w.extractLsb' 8 4 ++ 0#1).signExtend 32

/-- U shape: `bits[31:12]` above twelve zero bits (rule R55). -/
def immU (w : Word) : Word := w.extractLsb' 12 20 ++ 0#12

/-- J shape: `sext_21(bits[31], bits[19:12], bits[20], bits[30:21], 0)` (rule R56). -/
def immJ (w : Word) : Word :=
  (w.extractLsb' 31 1 ++ w.extractLsb' 12 8 ++ w.extractLsb' 20 1 ++ w.extractLsb' 21 10 ++ 0#1).signExtend 32

/-! ### The spec's Decode: total on every word (rule R57) -/

/-- The seven values the decoder extracts from every word (rule R57). -/
structure DecodedFields where
  opcode : BitVec 7
  rd     : RegIdx
  funct3 : BitVec 3
  rs1    : RegIdx
  rs2    : RegIdx
  funct7 : BitVec 7
  imm    : Word
  deriving DecidableEq, Repr

/-- The immediate by opcode; zero for the R shape and for every undefined opcode (rules R51, R57). -/
def decodeImm (w : Word) : Word :=
  match opcodeField w with
  | 0x03#7 => immI w
  | 0x13#7 => immI w
  | 0x67#7 => immI w
  | 0x73#7 => immI w
  | 0x23#7 => immS w
  | 0x63#7 => immB w
  | 0x37#7 => immU w
  | 0x17#7 => immU w
  | 0x6F#7 => immJ w
  | _ => 0#32

/-- `Decode(word)` (rule R57). -/
def decodeFields (w : Word) : DecodedFields :=
  { opcode := opcodeField w, rd := rdField w, funct3 := funct3Field w, rs1 := rs1Field w,
    rs2 := rs2Field w, funct7 := funct7Field w, imm := decodeImm w }

/-! ### Dispatch (rule R85), rejecting by name -/

/-- Why a word is no instruction (the rows of rule R60), or why bytes are no word. -/
inductive DecodeReject where
  /-- the opcode is none of the ten defined ones -/
  | undefinedOpcode
  /-- opcode 0x13, a shift with undefined high immediate bits -/
  | undefinedShiftImmediate
  /-- opcode 0x33, an undefined funct7 and funct3 pair -/
  | undefinedRegisterOp
  /-- opcode 0x03, funct3 3, 6 or 7 -/
  | undefinedLoad
  /-- opcode 0x23, funct3 3 to 7 -/
  | undefinedStore
  /-- opcode 0x63, funct3 2 or 3 -/
  | undefinedBranch
  /-- opcode 0x73, an immediate that is neither 0 nor 1 -/
  | undefinedSystem
  /-- fewer than four bytes are given -/
  | tooFewBytes
  deriving DecidableEq, Repr

/-- The `0x13` arm of rule R85; the high immediate bits `imm[11:5]` are the funct7 field (conflict C1). -/
def selectOpImm (d : DecodedFields) : Except DecodeReject Instr :=
  match d.funct3 with
  | 0#3 => .ok (.addi d.rd d.rs1 d.imm)
  | 1#3 => if d.funct7 = 0x00#7 then .ok (.slli d.rd d.rs1 (d.imm.extractLsb' 0 5))
           else .error .undefinedShiftImmediate
  | 2#3 => .ok (.slti d.rd d.rs1 d.imm)
  | 3#3 => .ok (.sltiu d.rd d.rs1 d.imm)
  | 4#3 => .ok (.xori d.rd d.rs1 d.imm)
  | 5#3 => if d.funct7 = 0x00#7 then .ok (.srli d.rd d.rs1 (d.imm.extractLsb' 0 5))
           else if d.funct7 = 0x20#7 then .ok (.srai d.rd d.rs1 (d.imm.extractLsb' 0 5))
           else .error .undefinedShiftImmediate
  | 6#3 => .ok (.ori d.rd d.rs1 d.imm)
  | 7#3 => .ok (.andi d.rd d.rs1 d.imm)

/-- The `0x33` arm of rule R85. -/
def selectOp (d : DecodedFields) : Except DecodeReject Instr :=
  match d.funct7, d.funct3 with
  | 0x00#7, 0#3 => .ok (.add d.rd d.rs1 d.rs2)
  | 0x00#7, 1#3 => .ok (.sll d.rd d.rs1 d.rs2)
  | 0x00#7, 2#3 => .ok (.slt d.rd d.rs1 d.rs2)
  | 0x00#7, 3#3 => .ok (.sltu d.rd d.rs1 d.rs2)
  | 0x00#7, 4#3 => .ok (.xor d.rd d.rs1 d.rs2)
  | 0x00#7, 5#3 => .ok (.srl d.rd d.rs1 d.rs2)
  | 0x00#7, 6#3 => .ok (.or d.rd d.rs1 d.rs2)
  | 0x00#7, 7#3 => .ok (.and d.rd d.rs1 d.rs2)
  | 0x20#7, 0#3 => .ok (.sub d.rd d.rs1 d.rs2)
  | 0x20#7, 5#3 => .ok (.sra d.rd d.rs1 d.rs2)
  | _, _ => .error .undefinedRegisterOp

/-- The `0x03` arm of rule R85. -/
def selectLoad (d : DecodedFields) : Except DecodeReject Instr :=
  match d.funct3 with
  | 0#3 => .ok (.lb d.rd d.rs1 d.imm)
  | 1#3 => .ok (.lh d.rd d.rs1 d.imm)
  | 2#3 => .ok (.lw d.rd d.rs1 d.imm)
  | 4#3 => .ok (.lbu d.rd d.rs1 d.imm)
  | 5#3 => .ok (.lhu d.rd d.rs1 d.imm)
  | _ => .error .undefinedLoad

/-- The `0x23` arm of rule R85. -/
def selectStore (d : DecodedFields) : Except DecodeReject Instr :=
  match d.funct3 with
  | 0#3 => .ok (.sb d.rs1 d.rs2 d.imm)
  | 1#3 => .ok (.sh d.rs1 d.rs2 d.imm)
  | 2#3 => .ok (.sw d.rs1 d.rs2 d.imm)
  | _ => .error .undefinedStore

/-- The `0x63` arm of rule R85. -/
def selectBranch (d : DecodedFields) : Except DecodeReject Instr :=
  match d.funct3 with
  | 0#3 => .ok (.beq d.rs1 d.rs2 d.imm)
  | 1#3 => .ok (.bne d.rs1 d.rs2 d.imm)
  | 4#3 => .ok (.blt d.rs1 d.rs2 d.imm)
  | 5#3 => .ok (.bge d.rs1 d.rs2 d.imm)
  | 6#3 => .ok (.bltu d.rs1 d.rs2 d.imm)
  | 7#3 => .ok (.bgeu d.rs1 d.rs2 d.imm)
  | _ => .error .undefinedBranch

/-- The `0x73` arm of rule R85: the immediate alone selects (rule R136). -/
def selectSystem (d : DecodedFields) : Except DecodeReject Instr :=
  if d.imm = 0#32 then .ok .ecall
  else if d.imm = 1#32 then .ok .ebreak
  else .error .undefinedSystem

/-- The dispatch tree of rule R85. -/
def select (d : DecodedFields) : Except DecodeReject Instr :=
  match d.opcode with
  | 0x13#7 => selectOpImm d
  | 0x33#7 => selectOp d
  | 0x03#7 => selectLoad d
  | 0x23#7 => selectStore d
  | 0x63#7 => selectBranch d
  | 0x6F#7 => .ok (.jal d.rd d.imm)
  | 0x67#7 => .ok (.jalr d.rd d.rs1 d.imm)
  | 0x37#7 => .ok (.lui d.rd d.imm)
  | 0x17#7 => .ok (.auipc d.rd d.imm)
  | 0x73#7 => selectSystem d
  | _ => .error .undefinedOpcode

/-- The instruction a word is, or the reason it is unsupported (rules R58 to R60). -/
def decodeWord (w : Word) : Except DecodeReject Instr := select (decodeFields w)

/-! ### Words and bytes: little-endian (rules R31, R37, R50) -/

/-- The word of four bytes, the first the least significant. -/
def wordOfBytes (b0 b1 b2 b3 : Byte) : Word := b3 ++ b2 ++ b1 ++ b0

/-- The four bytes of a word as memory holds them, the first at the lowest address. -/
def bytesOfWord (w : Word) : List Byte :=
  [w.extractLsb' 0 8, w.extractLsb' 8 8, w.extractLsb' 16 8, w.extractLsb' 24 8]

/-- Decode the instruction at the front of a byte sequence; every instruction is four bytes (rule R62). -/
def decodeBytes : List Byte → Except DecodeReject (Instr × List Byte)
  | b0 :: b1 :: b2 :: b3 :: rest =>
    match decodeWord (wordOfBytes b0 b1 b2 b3) with
    | .ok i => .ok (i, rest)
    | .error r => .error r
  | _ => .error .tooFewBytes

/-! ### The encoder (rules R51, R58). Unexamined fields are written zero, the canonical words. -/

/-- I shape (rule R51). -/
def encodeI (opcode : BitVec 7) (funct3 : BitVec 3) (rd rs1 : RegIdx) (imm : Word) : Word :=
  imm.extractLsb' 0 12 ++ rs1 ++ funct3 ++ rd ++ opcode

/-- I shape with a shift amount under high immediate bits (rules R97 to R99). -/
def encodeShift (high : BitVec 7) (funct3 : BitVec 3) (rd rs1 : RegIdx) (shamt : BitVec 5) : Word :=
  high ++ shamt ++ rs1 ++ funct3 ++ rd ++ 0x13#7

/-- R shape (rule R51). -/
def encodeR (funct7 : BitVec 7) (funct3 : BitVec 3) (rd rs1 rs2 : RegIdx) : Word :=
  funct7 ++ rs2 ++ rs1 ++ funct3 ++ rd ++ 0x33#7

/-- S shape (rule R51). -/
def encodeS (funct3 : BitVec 3) (rs1 rs2 : RegIdx) (imm : Word) : Word :=
  imm.extractLsb' 5 7 ++ rs2 ++ rs1 ++ funct3 ++ imm.extractLsb' 0 5 ++ 0x23#7

/-- B shape (rule R51). -/
def encodeB (funct3 : BitVec 3) (rs1 rs2 : RegIdx) (imm : Word) : Word :=
  imm.extractLsb' 12 1 ++ imm.extractLsb' 5 6 ++ rs2 ++ rs1 ++ funct3 ++ imm.extractLsb' 1 4 ++
    imm.extractLsb' 11 1 ++ 0x63#7

/-- U shape (rule R51). -/
def encodeU (opcode : BitVec 7) (rd : RegIdx) (imm : Word) : Word :=
  imm.extractLsb' 12 20 ++ rd ++ opcode

/-- J shape (rule R51). -/
def encodeJ (rd : RegIdx) (imm : Word) : Word :=
  imm.extractLsb' 20 1 ++ imm.extractLsb' 1 10 ++ imm.extractLsb' 11 1 ++ imm.extractLsb' 12 8 ++ rd ++ 0x6F#7

/-- The word of a well-formed instruction, from the table of rule R58. -/
def encode : Instr → Word
  | .addi rd rs1 imm => encodeI 0x13#7 0#3 rd rs1 imm
  | .slti rd rs1 imm => encodeI 0x13#7 2#3 rd rs1 imm
  | .sltiu rd rs1 imm => encodeI 0x13#7 3#3 rd rs1 imm
  | .xori rd rs1 imm => encodeI 0x13#7 4#3 rd rs1 imm
  | .ori rd rs1 imm => encodeI 0x13#7 6#3 rd rs1 imm
  | .andi rd rs1 imm => encodeI 0x13#7 7#3 rd rs1 imm
  | .slli rd rs1 shamt => encodeShift 0x00#7 1#3 rd rs1 shamt
  | .srli rd rs1 shamt => encodeShift 0x00#7 5#3 rd rs1 shamt
  | .srai rd rs1 shamt => encodeShift 0x20#7 5#3 rd rs1 shamt
  | .add rd rs1 rs2 => encodeR 0x00#7 0#3 rd rs1 rs2
  | .sub rd rs1 rs2 => encodeR 0x20#7 0#3 rd rs1 rs2
  | .sll rd rs1 rs2 => encodeR 0x00#7 1#3 rd rs1 rs2
  | .slt rd rs1 rs2 => encodeR 0x00#7 2#3 rd rs1 rs2
  | .sltu rd rs1 rs2 => encodeR 0x00#7 3#3 rd rs1 rs2
  | .xor rd rs1 rs2 => encodeR 0x00#7 4#3 rd rs1 rs2
  | .srl rd rs1 rs2 => encodeR 0x00#7 5#3 rd rs1 rs2
  | .sra rd rs1 rs2 => encodeR 0x20#7 5#3 rd rs1 rs2
  | .or rd rs1 rs2 => encodeR 0x00#7 6#3 rd rs1 rs2
  | .and rd rs1 rs2 => encodeR 0x00#7 7#3 rd rs1 rs2
  | .lb rd rs1 imm => encodeI 0x03#7 0#3 rd rs1 imm
  | .lh rd rs1 imm => encodeI 0x03#7 1#3 rd rs1 imm
  | .lw rd rs1 imm => encodeI 0x03#7 2#3 rd rs1 imm
  | .lbu rd rs1 imm => encodeI 0x03#7 4#3 rd rs1 imm
  | .lhu rd rs1 imm => encodeI 0x03#7 5#3 rd rs1 imm
  | .sb rs1 rs2 imm => encodeS 0#3 rs1 rs2 imm
  | .sh rs1 rs2 imm => encodeS 1#3 rs1 rs2 imm
  | .sw rs1 rs2 imm => encodeS 2#3 rs1 rs2 imm
  | .beq rs1 rs2 imm => encodeB 0#3 rs1 rs2 imm
  | .bne rs1 rs2 imm => encodeB 1#3 rs1 rs2 imm
  | .blt rs1 rs2 imm => encodeB 4#3 rs1 rs2 imm
  | .bge rs1 rs2 imm => encodeB 5#3 rs1 rs2 imm
  | .bltu rs1 rs2 imm => encodeB 6#3 rs1 rs2 imm
  | .bgeu rs1 rs2 imm => encodeB 7#3 rs1 rs2 imm
  | .jal rd imm => encodeJ rd imm
  | .jalr rd rs1 imm => encodeI 0x67#7 0#3 rd rs1 imm
  | .lui rd imm => encodeU 0x37#7 rd imm
  | .auipc rd imm => encodeU 0x17#7 rd imm
  | .ecall => 0x00000073#32
  | .ebreak => 0x00100073#32

/-- The bytes of an instruction as memory holds them. -/
def encodeBytes (i : Instr) : List Byte := bytesOfWord (encode i)

/-! ### The opcode map (rule R58, spec/opcode_table.json) -/

/-- The fixed bits of the instruction's row: the row's mask. -/
def Instr.rowMask : Instr → Word
  | .addi _ _ _ => 0x0000707F#32
  | .slti _ _ _ => 0x0000707F#32
  | .sltiu _ _ _ => 0x0000707F#32
  | .xori _ _ _ => 0x0000707F#32
  | .ori _ _ _ => 0x0000707F#32
  | .andi _ _ _ => 0x0000707F#32
  | .slli _ _ _ => 0xFE00707F#32
  | .srli _ _ _ => 0xFE00707F#32
  | .srai _ _ _ => 0xFE00707F#32
  | .add _ _ _ => 0xFE00707F#32
  | .sub _ _ _ => 0xFE00707F#32
  | .sll _ _ _ => 0xFE00707F#32
  | .slt _ _ _ => 0xFE00707F#32
  | .sltu _ _ _ => 0xFE00707F#32
  | .xor _ _ _ => 0xFE00707F#32
  | .srl _ _ _ => 0xFE00707F#32
  | .sra _ _ _ => 0xFE00707F#32
  | .or _ _ _ => 0xFE00707F#32
  | .and _ _ _ => 0xFE00707F#32
  | .lb _ _ _ => 0x0000707F#32
  | .lh _ _ _ => 0x0000707F#32
  | .lw _ _ _ => 0x0000707F#32
  | .lbu _ _ _ => 0x0000707F#32
  | .lhu _ _ _ => 0x0000707F#32
  | .sb _ _ _ => 0x0000707F#32
  | .sh _ _ _ => 0x0000707F#32
  | .sw _ _ _ => 0x0000707F#32
  | .beq _ _ _ => 0x0000707F#32
  | .bne _ _ _ => 0x0000707F#32
  | .blt _ _ _ => 0x0000707F#32
  | .bge _ _ _ => 0x0000707F#32
  | .bltu _ _ _ => 0x0000707F#32
  | .bgeu _ _ _ => 0x0000707F#32
  | .jal _ _ => 0x0000007F#32
  | .jalr _ _ _ => 0x0000007F#32
  | .lui _ _ => 0x0000007F#32
  | .auipc _ _ => 0x0000007F#32
  | .ecall => 0xFFF0007F#32
  | .ebreak => 0xFFF0007F#32

/-- The values of the fixed bits: the row's match. -/
def Instr.rowMatch : Instr → Word
  | .addi _ _ _ => 0x00000013#32
  | .slti _ _ _ => 0x00002013#32
  | .sltiu _ _ _ => 0x00003013#32
  | .xori _ _ _ => 0x00004013#32
  | .ori _ _ _ => 0x00006013#32
  | .andi _ _ _ => 0x00007013#32
  | .slli _ _ _ => 0x00001013#32
  | .srli _ _ _ => 0x00005013#32
  | .srai _ _ _ => 0x40005013#32
  | .add _ _ _ => 0x00000033#32
  | .sub _ _ _ => 0x40000033#32
  | .sll _ _ _ => 0x00001033#32
  | .slt _ _ _ => 0x00002033#32
  | .sltu _ _ _ => 0x00003033#32
  | .xor _ _ _ => 0x00004033#32
  | .srl _ _ _ => 0x00005033#32
  | .sra _ _ _ => 0x40005033#32
  | .or _ _ _ => 0x00006033#32
  | .and _ _ _ => 0x00007033#32
  | .lb _ _ _ => 0x00000003#32
  | .lh _ _ _ => 0x00001003#32
  | .lw _ _ _ => 0x00002003#32
  | .lbu _ _ _ => 0x00004003#32
  | .lhu _ _ _ => 0x00005003#32
  | .sb _ _ _ => 0x00000023#32
  | .sh _ _ _ => 0x00001023#32
  | .sw _ _ _ => 0x00002023#32
  | .beq _ _ _ => 0x00000063#32
  | .bne _ _ _ => 0x00001063#32
  | .blt _ _ _ => 0x00004063#32
  | .bge _ _ _ => 0x00005063#32
  | .bltu _ _ _ => 0x00006063#32
  | .bgeu _ _ _ => 0x00007063#32
  | .jal _ _ => 0x0000006F#32
  | .jalr _ _ _ => 0x00000067#32
  | .lui _ _ => 0x00000037#32
  | .auipc _ _ => 0x00000017#32
  | .ecall => 0x00000073#32
  | .ebreak => 0x00100073#32

/-- The bits of a word the core examines when it is this instruction: all but `funct3` of JALR and `funct3`, `rd`,
`rs1` of the system class (rule R59, decision D3). -/
def Instr.examinedMask : Instr → Word
  | .addi _ _ _ => 0xFFFFFFFF#32
  | .slti _ _ _ => 0xFFFFFFFF#32
  | .sltiu _ _ _ => 0xFFFFFFFF#32
  | .xori _ _ _ => 0xFFFFFFFF#32
  | .ori _ _ _ => 0xFFFFFFFF#32
  | .andi _ _ _ => 0xFFFFFFFF#32
  | .slli _ _ _ => 0xFFFFFFFF#32
  | .srli _ _ _ => 0xFFFFFFFF#32
  | .srai _ _ _ => 0xFFFFFFFF#32
  | .add _ _ _ => 0xFFFFFFFF#32
  | .sub _ _ _ => 0xFFFFFFFF#32
  | .sll _ _ _ => 0xFFFFFFFF#32
  | .slt _ _ _ => 0xFFFFFFFF#32
  | .sltu _ _ _ => 0xFFFFFFFF#32
  | .xor _ _ _ => 0xFFFFFFFF#32
  | .srl _ _ _ => 0xFFFFFFFF#32
  | .sra _ _ _ => 0xFFFFFFFF#32
  | .or _ _ _ => 0xFFFFFFFF#32
  | .and _ _ _ => 0xFFFFFFFF#32
  | .lb _ _ _ => 0xFFFFFFFF#32
  | .lh _ _ _ => 0xFFFFFFFF#32
  | .lw _ _ _ => 0xFFFFFFFF#32
  | .lbu _ _ _ => 0xFFFFFFFF#32
  | .lhu _ _ _ => 0xFFFFFFFF#32
  | .sb _ _ _ => 0xFFFFFFFF#32
  | .sh _ _ _ => 0xFFFFFFFF#32
  | .sw _ _ _ => 0xFFFFFFFF#32
  | .beq _ _ _ => 0xFFFFFFFF#32
  | .bne _ _ _ => 0xFFFFFFFF#32
  | .blt _ _ _ => 0xFFFFFFFF#32
  | .bge _ _ _ => 0xFFFFFFFF#32
  | .bltu _ _ _ => 0xFFFFFFFF#32
  | .bgeu _ _ _ => 0xFFFFFFFF#32
  | .jal _ _ => 0xFFFFFFFF#32
  | .jalr _ _ _ => 0xFFFF8FFF#32
  | .lui _ _ => 0xFFFFFFFF#32
  | .auipc _ _ => 0xFFFFFFFF#32
  | .ecall => 0xFFF0007F#32
  | .ebreak => 0xFFF0007F#32

/-! ### The host's numbering of a word -/

/-- The first `nbits` bits of the number `w` as an instruction word, the bits above zero. -/
def tableWord (nbits w : Nat) : Word := BitVec.ofNat 32 (w % 2 ^ nbits)

/-- The instruction the decoder reads from the table's word, laid out little-endian as memory holds it. -/
def decodeTableWord (nbits w : Nat) : Option Instr :=
  match decodeBytes (bytesOfWord (tableWord nbits w)) with
  | .ok (i, _) => some i
  | .error _ => none

end Sys2Proof
end

