-- ==== Sys2Proof/Config.lean ====
section
/-! DEFINITION. What is fixed for the machine: the constants of spec/00_scope.md rule R6, and the values
`State.reset` takes for the reset arguments the spec leaves open (notes/assumptions/3.md, 4.md, 5.md).

The spec leaves no result of an instruction undefined (spec/93_implementation_defined.md Part 1), so there is no
free value here. -/

namespace Sys2Proof.Config

/-- MEM_SIZE, the memory size asked for at construction: the spec's default, 1 MiB (rule R6). -/
abbrev memSize : Nat := 1048576

/-- BASE of `State.reset`. DESIGN CHOICE: the spec gives BASE no value (notes/assumptions/3.md). -/
abbrev base : Word := 0#32

/-- IMAGE of `State.reset`. DESIGN CHOICE: no program is built into the machine (notes/assumptions/3.md). -/
abbrev image : List Byte := []

/-- REG_INIT of `State.reset`, for each of x1 to x31. DESIGN CHOICE: the spec leaves it open
(decision D7, notes/assumptions/4.md). -/
abbrev regInit : Word := 0#32

/-- What a byte of memory that the list does not name reads as. It is zero because the growth gap is zero
(rule R172). For the MEM_INIT bytes of `State.reset` the same zero is a DESIGN CHOICE (decision D8,
notes/assumptions/5.md). -/
abbrev unlistedByte : Byte := 0#8

/-- The size of the 32-bit byte address space (rule R39), the upper limit of the memory length (rule R6). -/
abbrev addressSpace : Nat := 4294967296

/-- The exit call number (rules R6, R138). -/
abbrev exitCall : Word := 1#32

/-- The write call number (rules R6, R139). -/
abbrev writeCall : Word := 4#32

/-- `a7 = x17`, the call-number register (rules R12, R137). -/
abbrev a7 : RegIdx := 17#5

/-- `a0 = x10`, the exit status register (rules R12, R138). -/
abbrev a0 : RegIdx := 10#5

/-- `a1 = x11`, the write call's buffer address (rules R12, R139). -/
abbrev a1 : RegIdx := 11#5

/-- `a2 = x12`, the write call's byte count (rules R12, R139). -/
abbrev a2 : RegIdx := 12#5

end Sys2Proof.Config
end

