-- ==== Sys2Proof/Machine/State.lean ====
section
/-! DEFINITION. The state of the core, as plain data (spec/10_state.md rule R10), and the reasons a step can stop.

There are no flags (R22), no control or status registers (R23), no other register file (R24) and no hidden state
(R25); the decoded instruction is not state (R26). -/

namespace Sys2Proof.Machine

/-- The four fatal conditions (spec/60_exceptions.md rule R150). They have no numbers (decision D15). -/
inductive Condition where
  /-- a read or write reaches past the memory length: the fetch, a load, a store or the write call (R152) -/
  | outOfBounds
  /-- the fetched word is none of the 39 instructions (R153) -/
  | unsupportedInstruction
  /-- ECALL with a call number other than 1 and 4 (R154) -/
  | unsupportedSyscall
  /-- EBREAK (R155) -/
  | breakpoint
  deriving DecidableEq, Repr

/-- What is recorded with a condition (rule R150). It is informational: no rule reads it (decision D15). -/
inductive FatalInfo where
  /-- the address and the width in bytes of the failing access; the write call's address is a natural number (R139) -/
  | access (addr width : Nat)
  /-- the instruction word -/
  | word (w : Word)
  /-- the call number -/
  | callNumber (n : Word)
  /-- the pc -/
  | atPc (pc : Word)
  deriving DecidableEq, Repr

/-- The run status (rule R20). -/
inductive RunStatus where
  | running
  | exited (status : Word)
  | fatal (c : Condition) (info : FatalInfo)
  deriving DecidableEq, Repr

/-- Memory as the bytes that differ from what an unlisted address reads as, in rising order of address. -/
abbrev Memory := List Host.Cell

/-- The canonical form of a memory: addresses strictly rising, and no entry equal to the unlisted byte. -/
abbrev Memory.wf (m : Memory) : Prop :=
  m.Pairwise (fun c d => c.1 < d.1) ∧ ∀ c ∈ m, c.2 ≠ Config.unlistedByte

/-- The state of the core (rule R10). -/
structure State where
  /-- x0 to x31 (rule R11) -/
  regs   : Vector Word 32
  /-- the address of the instruction being executed (rule R16) -/
  pc     : Word
  /-- the bytes of memory (rule R19) -/
  mem    : Memory
  /-- MEM_LEN, the memory length every bounds check uses; fixed from reset on (rules R6, R19, R27) -/
  memLen : Nat
  /-- the run status (rule R20) -/
  run    : RunStatus
  /-- OUT, every byte emitted so far, in order (rule R21) -/
  out    : List Byte
  deriving DecidableEq, Repr

/-- Why a step stops without a next state. -/
inductive Fault where
  /-- Raised by `step` on a machine whose run is over: no step exists (rules R20, R88; U13). Safe: the machine stops
  where the spec defines no step (notes/assumptions/2.md). -/
  | runOver
  deriving DecidableEq, Repr

/-- What the model does not give a meaning to. -/
inductive Refusal where
  /-- An arm of `exec` that has no meaning yet. No arm is left so. Safe. -/
  | notModelled (mnemonic : String)
  /-- Raised by `State.resetWith` on reset arguments past the 32-bit address space (decision D13, U12). Safe: the
  machine is not built. -/
  | resetArguments
  deriving DecidableEq, Repr

/-- The machine right after reset (rule R27), at the arguments of Config.lean: `pc` at BASE, the default memory size,
the run started, nothing emitted. The values of x1 to x31, of BASE, of IMAGE and of the bytes of memory are the
model's (notes/assumptions/3.md, 4.md, 5.md); `State.resetWith` is reset for every value of them. -/
def State.reset : State :=
  { regs   := #v[0#32, Config.regInit, Config.regInit, Config.regInit, Config.regInit, Config.regInit, Config.regInit,
               Config.regInit, Config.regInit, Config.regInit, Config.regInit, Config.regInit, Config.regInit,
               Config.regInit, Config.regInit, Config.regInit, Config.regInit, Config.regInit, Config.regInit,
               Config.regInit, Config.regInit, Config.regInit, Config.regInit, Config.regInit, Config.regInit,
               Config.regInit, Config.regInit, Config.regInit, Config.regInit, Config.regInit, Config.regInit,
               Config.regInit]
    pc     := Config.base
    mem    := []
    memLen := Config.memSize
    run    := .running
    out    := [] }

end Sys2Proof.Machine
end

