-- ==== Sys2Proof/Machine/Ops.lean ====
section
/-! DEFINITION. The operations the meanings are made of: registers (spec/10_state.md), memory (spec/20_memory.md),
the output stream, completing a step (spec/40_step_and_dispatch.md), raising a fatal condition and ending the run
(spec/60_exceptions.md, spec/46_system.md). -/

namespace Sys2Proof.Machine

/-! ### Registers (rules R11, R13, R14) -/

/-- `x[i]`: read of a general register (rule R8). -/
def State.reg (s : State) (i : RegIdx) : Word := s.regs[i.toNat]'(i.isLt)

/-- `x[i] <- v`: the write is accepted for every register, x0 included (rule R13). -/
def State.setReg (s : State) (i : RegIdx) (v : Word) : State :=
  { s with regs := s.regs.set i.toNat v i.isLt }

/-! ### Bytes of memory (rule R19) -/

/-- The byte at an address. -/
def Memory.byte : Memory → Nat → Byte
  | [], _ => Config.unlistedByte
  | (k, b) :: rest, a => if a = k then b else Memory.byte rest a

/-- Replace the byte at an address, keeping the canonical form. -/
def Memory.setByte : Memory → Nat → Byte → Memory
  | [], a, v => if v = Config.unlistedByte then [] else [(a, v)]
  | (k, b) :: rest, a, v =>
    if a < k then (if v = Config.unlistedByte then (k, b) :: rest else (a, v) :: (k, b) :: rest)
    else if a = k then (if v = Config.unlistedByte then rest else (a, v) :: rest)
    else (k, b) :: Memory.setByte rest a v

/-! ### Accesses of 1, 2 and 4 bytes, little-endian (rules R30 to R33) -/

/-- The three access widths; no other exists (rule R30). -/
inductive Width where
  | byte
  | half
  | word
  deriving DecidableEq, Repr

/-- The width in bytes. -/
def Width.bytes : Width → Nat
  | .byte => 1
  | .half => 2
  | .word => 4

/-- The little-endian number of `n` bytes at an address (rule R32). -/
def Memory.readLE (m : Memory) : Nat → Nat → Nat
  | _, 0 => 0
  | a, n + 1 => (m.byte a).toNat + 256 * Memory.readLE m (a + 1) n

/-- Store the low `n` bytes of a word at an address, little-endian (rule R33). -/
def Memory.writeLE (m : Memory) : Nat → Nat → Word → Memory
  | _, 0, _ => m
  | a, n + 1, v => Memory.writeLE (m.setByte a (v.setWidth 8)) (a + 1) n (v >>> 8)

/-- The bounds check: the sum is over the natural numbers (rule R34). -/
abbrev State.inBounds (s : State) (addr n : Nat) : Prop := addr + n ≤ s.memLen

/-- `MemRead(addr, n)`: the value in the low `8n` bits; `none` is `OutOfBounds` (rule R32). -/
def State.memRead (s : State) (addr : Nat) (w : Width) : Option Word :=
  if s.inBounds addr w.bytes then some (BitVec.ofNat 32 (s.mem.readLE addr w.bytes)) else none

/-- `MemWrite(addr, n, v)`: the check precedes the write; `none` is `OutOfBounds` (rule R33). -/
def State.memWrite (s : State) (addr : Nat) (w : Width) (v : Word) : Option State :=
  if s.inBounds addr w.bytes then some { s with mem := s.mem.writeLE addr w.bytes v } else none

/-! ### Completing a step, raising, exiting -/

/-- The two last actions of a completed step: `x[0] <- 0`, then `pc <- next` (rule R84). -/
def State.complete (s : State) (next : Word) : State :=
  { s.setReg 0#5 0#32 with pc := next }

/-- The default next pc, `pc + 4` modulo 2^32 (rule R83). -/
def State.pcPlus4 (s : State) : Word := s.pc + 4#32

/-- `raise c(info)`: taking a fatal condition. The run is over; x, pc, mem keep their values and OUT what was emitted
(rule R151). There is no return from one (rule R158). The state is a next state whose `run` says so
(notes/assumptions/1.md). -/
def State.raise (s : State) (c : Condition) (info : FatalInfo) : State :=
  { s with run := .fatal c info }

/-- `raise OutOfBounds(addr, n)` (rule R152). -/
def State.raiseOutOfBounds (s : State) (addr : Nat) (w : Width) : State :=
  s.raise .outOfBounds (.access addr w.bytes)

/-- `exit(status)`: the run is over; nothing else changes, and the step is not completed (rule R138). -/
def State.exit (s : State) (status : Word) : State :=
  { s with run := .exited status }

/-- `emit(b)`: append a byte to the output stream (rule R21). -/
def State.emit (s : State) (b : Byte) : State :=
  { s with out := s.out ++ [b] }

/-- Emit `cnt` bytes of memory from `addr` upwards, one at a time. The second part is the first address that is out of
bounds, where the emission stopped (rule R139). -/
def State.emitBytes : Nat → Nat → State → State × Option Nat
  | 0, _, s => (s, none)
  | cnt + 1, addr, s =>
    match s.memRead addr .byte with
    | none => (s, some addr)
    | some b => State.emitBytes cnt (addr + 1) (s.emit (b.setWidth 8))

/-! ### The shapes of a meaning -/

/-- An instruction that writes one register and goes on at `pc + 4` (rules R13, R84). -/
def State.writeBack (s : State) (rd : RegIdx) (v : Word) : Host.Outcome State Fault Refusal :=
  .next ((s.setReg rd v).complete s.pcPlus4)

/-- A load: the checked read, then the register write (rule R112). -/
def State.load (s : State) (w : Width) (extend : Word → Word) (rd : RegIdx) (ea : Word) :
    Host.Outcome State Fault Refusal :=
  match s.memRead ea.toNat w with
  | none => .next (s.raiseOutOfBounds ea.toNat w)
  | some v => s.writeBack rd (extend v)

/-- A store: the checked write; no register changes (rule R118). -/
def State.store (s : State) (w : Width) (ea v : Word) : Host.Outcome State Fault Refusal :=
  match s.memWrite ea.toNat w v with
  | none => .next (s.raiseOutOfBounds ea.toNat w)
  | some t => .next (t.complete s.pcPlus4)

/-- A branch: the target when the condition holds, else `pc + 4`; nothing else changes (rule R122). -/
def State.branch (s : State) (taken : Bool) (target : Word) : Host.Outcome State Fault Refusal :=
  .next (s.complete (if taken then target else s.pcPlus4))

/-- A jump: the return address into `rd`, then the target (rules R130, R131). -/
def State.link (s : State) (rd : RegIdx) (target : Word) : Host.Outcome State Fault Refusal :=
  .next ((s.setReg rd s.pcPlus4).complete target)

end Sys2Proof.Machine
end

