-- ==== Sys2Proof/Machine/Flags.lean ====
section
/-! DEFINITION. Comparisons. The core has no flags (spec/10_state.md rule R22): a comparison writes 0 or 1 into a
register or decides a branch within the step, and no instruction reads or writes a flag. -/

namespace Sys2Proof.Machine

/-- `a <s b`: both read as two's complement (rules R8, R100 (d)). -/
def lessSigned (a b : Word) : Bool := a.slt b

/-- `a <u b`: both read as naturals (rules R8, R100 (d)). -/
def lessUnsigned (a b : Word) : Bool := a.ult b

/-- The word a set-less-than writes: 1 when true, 0 when false (rules R92, R100 (e)). -/
def boolWord (b : Bool) : Word := if b then 1#32 else 0#32

end Sys2Proof.Machine
end

