-- ==== Sys2Proof/Machine/Operands.lean ====
section
/-! DEFINITION. Operand forms: effective addresses, targets, shift amounts and the extension of a loaded value
(spec/42_alu_register.md rule R100, spec/43_load_store.md, spec/44_branch.md, spec/45_jump_upper.md). -/

namespace Sys2Proof.Machine

/-- The one addressing mode, `x[rs1] + imm` modulo 2^32 (rules R112, R118). -/
def State.effAddr (s : State) (rs1 : RegIdx) (imm : Word) : Word := s.reg rs1 + imm

/-- A target relative to the instruction's own address, `pc + imm` modulo 2^32 (rules R122, R130). -/
def State.pcTarget (s : State) (imm : Word) : Word := s.pc + imm

/-- The indirect jump's target: `x[rs1] + imm` with the low bit forced to zero (rule R131). -/
def State.indirectTarget (s : State) (rs1 : RegIdx) (imm : Word) : Word :=
  (s.reg rs1 + imm) &&& 0xFFFFFFFE#32

/-- The shift amount of a register form: the low five bits of `x[rs2]` (rules R100 (c), R104). -/
def State.shiftAmount (s : State) (rs2 : RegIdx) : BitVec 5 := (s.reg rs2).setWidth 5

/-- `a << n`: zeros enter at the right (rule R100 (c)). -/
def shiftLeft (a : Word) (n : BitVec 5) : Word := a <<< n.toNat

/-- `a >>u n`: zeros enter at the left (rule R100 (c)). -/
def shiftRightLogical (a : Word) (n : BitVec 5) : Word := a >>> n.toNat

/-- `a >>s n`: copies of bit 31 enter at the left (rule R100 (c)). -/
def shiftRightArith (a : Word) (n : BitVec 5) : Word := a.sshiftRight n.toNat

/-- `sext_8` of the low byte (rule R113). -/
def signExtendByte (v : Word) : Word := (v.setWidth 8).signExtend 32

/-- `sext_16` of the low half-word (rule R114). -/
def signExtendHalf (v : Word) : Word := (v.setWidth 16).signExtend 32

/-- `zext_8` of the low byte (rule R116). -/
def zeroExtendByte (v : Word) : Word := (v.setWidth 8).setWidth 32

/-- `zext_16` of the low half-word (rule R117). -/
def zeroExtendHalf (v : Word) : Word := (v.setWidth 16).setWidth 32

end Sys2Proof.Machine
end

