-- ==== Sys2Proof/Machine/AluImmediate.lean ====
section
/-! DEFINITION. Register-immediate ALU instructions (spec/41_alu_immediate.md rules R90 to R99). -/

namespace Sys2Proof.Machine

/-- ADDI (rule R91). -/
def execAddi (rd rs1 : RegIdx) (imm : Word) (s : State) : Host.Outcome State Fault Refusal :=
  s.writeBack rd (s.reg rs1 + imm)

/-- SLTI (rule R92). -/
def execSlti (rd rs1 : RegIdx) (imm : Word) (s : State) : Host.Outcome State Fault Refusal :=
  s.writeBack rd (boolWord (lessSigned (s.reg rs1) imm))

/-- SLTIU (rule R93): the immediate is the sign-extended word, compared as a natural. -/
def execSltiu (rd rs1 : RegIdx) (imm : Word) (s : State) : Host.Outcome State Fault Refusal :=
  s.writeBack rd (boolWord (lessUnsigned (s.reg rs1) imm))

/-- XORI (rule R94). -/
def execXori (rd rs1 : RegIdx) (imm : Word) (s : State) : Host.Outcome State Fault Refusal :=
  s.writeBack rd (s.reg rs1 ^^^ imm)

/-- ORI (rule R95). -/
def execOri (rd rs1 : RegIdx) (imm : Word) (s : State) : Host.Outcome State Fault Refusal :=
  s.writeBack rd (s.reg rs1 ||| imm)

/-- ANDI (rule R96). -/
def execAndi (rd rs1 : RegIdx) (imm : Word) (s : State) : Host.Outcome State Fault Refusal :=
  s.writeBack rd (s.reg rs1 &&& imm)

/-- SLLI (rule R97). -/
def execSlli (rd rs1 : RegIdx) (shamt : BitVec 5) (s : State) : Host.Outcome State Fault Refusal :=
  s.writeBack rd (shiftLeft (s.reg rs1) shamt)

/-- SRLI (rule R98). -/
def execSrli (rd rs1 : RegIdx) (shamt : BitVec 5) (s : State) : Host.Outcome State Fault Refusal :=
  s.writeBack rd (shiftRightLogical (s.reg rs1) shamt)

/-- SRAI (rule R99). -/
def execSrai (rd rs1 : RegIdx) (shamt : BitVec 5) (s : State) : Host.Outcome State Fault Refusal :=
  s.writeBack rd (shiftRightArith (s.reg rs1) shamt)

end Sys2Proof.Machine
end

