-- ==== Sys2Proof/Machine/AluRegister.lean ====
section
/-! DEFINITION. Register-register ALU instructions (spec/42_alu_register.md rules R100 to R111). -/

namespace Sys2Proof.Machine

/-- ADD (rule R102). -/
def execAdd (rd rs1 rs2 : RegIdx) (s : State) : Host.Outcome State Fault Refusal :=
  s.writeBack rd (s.reg rs1 + s.reg rs2)

/-- SUB (rule R103). -/
def execSub (rd rs1 rs2 : RegIdx) (s : State) : Host.Outcome State Fault Refusal :=
  s.writeBack rd (s.reg rs1 - s.reg rs2)

/-- SLL (rule R104). -/
def execSll (rd rs1 rs2 : RegIdx) (s : State) : Host.Outcome State Fault Refusal :=
  s.writeBack rd (shiftLeft (s.reg rs1) (s.shiftAmount rs2))

/-- SLT (rule R105). -/
def execSlt (rd rs1 rs2 : RegIdx) (s : State) : Host.Outcome State Fault Refusal :=
  s.writeBack rd (boolWord (lessSigned (s.reg rs1) (s.reg rs2)))

/-- SLTU (rule R106). -/
def execSltu (rd rs1 rs2 : RegIdx) (s : State) : Host.Outcome State Fault Refusal :=
  s.writeBack rd (boolWord (lessUnsigned (s.reg rs1) (s.reg rs2)))

/-- XOR (rule R107). -/
def execXor (rd rs1 rs2 : RegIdx) (s : State) : Host.Outcome State Fault Refusal :=
  s.writeBack rd (s.reg rs1 ^^^ s.reg rs2)

/-- SRL (rule R108). -/
def execSrl (rd rs1 rs2 : RegIdx) (s : State) : Host.Outcome State Fault Refusal :=
  s.writeBack rd (shiftRightLogical (s.reg rs1) (s.shiftAmount rs2))

/-- SRA (rule R109). -/
def execSra (rd rs1 rs2 : RegIdx) (s : State) : Host.Outcome State Fault Refusal :=
  s.writeBack rd (shiftRightArith (s.reg rs1) (s.shiftAmount rs2))

/-- OR (rule R110). -/
def execOr (rd rs1 rs2 : RegIdx) (s : State) : Host.Outcome State Fault Refusal :=
  s.writeBack rd (s.reg rs1 ||| s.reg rs2)

/-- AND (rule R111). -/
def execAnd (rd rs1 rs2 : RegIdx) (s : State) : Host.Outcome State Fault Refusal :=
  s.writeBack rd (s.reg rs1 &&& s.reg rs2)

end Sys2Proof.Machine
end

