-- ==== Sys2Proof/Machine/Branch.lean ====
section
/-! DEFINITION. Conditional branches (spec/44_branch.md rules R122 to R129). -/

namespace Sys2Proof.Machine

/-- BEQ (rule R123). -/
def execBeq (rs1 rs2 : RegIdx) (imm : Word) (s : State) : Host.Outcome State Fault Refusal :=
  s.branch (s.reg rs1 == s.reg rs2) (s.pcTarget imm)

/-- BNE (rule R124). -/
def execBne (rs1 rs2 : RegIdx) (imm : Word) (s : State) : Host.Outcome State Fault Refusal :=
  s.branch (s.reg rs1 != s.reg rs2) (s.pcTarget imm)

/-- BLT (rule R125). -/
def execBlt (rs1 rs2 : RegIdx) (imm : Word) (s : State) : Host.Outcome State Fault Refusal :=
  s.branch (lessSigned (s.reg rs1) (s.reg rs2)) (s.pcTarget imm)

/-- BGE (rule R126). -/
def execBge (rs1 rs2 : RegIdx) (imm : Word) (s : State) : Host.Outcome State Fault Refusal :=
  s.branch (!lessSigned (s.reg rs1) (s.reg rs2)) (s.pcTarget imm)

/-- BLTU (rule R127). -/
def execBltu (rs1 rs2 : RegIdx) (imm : Word) (s : State) : Host.Outcome State Fault Refusal :=
  s.branch (lessUnsigned (s.reg rs1) (s.reg rs2)) (s.pcTarget imm)

/-- BGEU (rule R128). -/
def execBgeu (rs1 rs2 : RegIdx) (imm : Word) (s : State) : Host.Outcome State Fault Refusal :=
  s.branch (!lessUnsigned (s.reg rs1) (s.reg rs2)) (s.pcTarget imm)

end Sys2Proof.Machine
end

