-- ==== Sys2Proof/Machine/JumpUpper.lean ====
section
/-! DEFINITION. Jumps and upper-immediate instructions (spec/45_jump_upper.md rules R130 to R134). -/

namespace Sys2Proof.Machine

/-- JAL (rule R130). -/
def execJal (rd : RegIdx) (imm : Word) (s : State) : Host.Outcome State Fault Refusal :=
  s.link rd (s.pcTarget imm)

/-- JALR (rule R131): the target is computed before `x[rd]` is written (decision D12). -/
def execJalr (rd rs1 : RegIdx) (imm : Word) (s : State) : Host.Outcome State Fault Refusal :=
  s.link rd (s.indirectTarget rs1 imm)

/-- LUI (rule R132). -/
def execLui (rd : RegIdx) (imm : Word) (s : State) : Host.Outcome State Fault Refusal :=
  s.writeBack rd imm

/-- AUIPC (rule R133). -/
def execAuipc (rd : RegIdx) (imm : Word) (s : State) : Host.Outcome State Fault Refusal :=
  s.writeBack rd (s.pc + imm)

end Sys2Proof.Machine
end

