-- ==== Sys2Proof/Machine/LoadStore.lean ====
section
/-! DEFINITION. Loads and stores (spec/43_load_store.md rules R112 to R121). -/

namespace Sys2Proof.Machine

/-- LB (rule R113). -/
def execLb (rd rs1 : RegIdx) (imm : Word) (s : State) : Host.Outcome State Fault Refusal :=
  s.load .byte signExtendByte rd (s.effAddr rs1 imm)

/-- LH (rule R114). -/
def execLh (rd rs1 : RegIdx) (imm : Word) (s : State) : Host.Outcome State Fault Refusal :=
  s.load .half signExtendHalf rd (s.effAddr rs1 imm)

/-- LW (rule R115). -/
def execLw (rd rs1 : RegIdx) (imm : Word) (s : State) : Host.Outcome State Fault Refusal :=
  s.load .word id rd (s.effAddr rs1 imm)

/-- LBU (rule R116). -/
def execLbu (rd rs1 : RegIdx) (imm : Word) (s : State) : Host.Outcome State Fault Refusal :=
  s.load .byte zeroExtendByte rd (s.effAddr rs1 imm)

/-- LHU (rule R117). -/
def execLhu (rd rs1 : RegIdx) (imm : Word) (s : State) : Host.Outcome State Fault Refusal :=
  s.load .half zeroExtendHalf rd (s.effAddr rs1 imm)

/-- SB (rule R119). -/
def execSb (rs1 rs2 : RegIdx) (imm : Word) (s : State) : Host.Outcome State Fault Refusal :=
  s.store .byte (s.effAddr rs1 imm) (s.reg rs2)

/-- SH (rule R120). -/
def execSh (rs1 rs2 : RegIdx) (imm : Word) (s : State) : Host.Outcome State Fault Refusal :=
  s.store .half (s.effAddr rs1 imm) (s.reg rs2)

/-- SW (rule R121). -/
def execSw (rs1 rs2 : RegIdx) (imm : Word) (s : State) : Host.Outcome State Fault Refusal :=
  s.store .word (s.effAddr rs1 imm) (s.reg rs2)

end Sys2Proof.Machine
end

