-- ==== Sys2Proof/Machine/System.lean ====
section
/-! DEFINITION. The system class and the environment-call handler (spec/46_system.md rules R136 to R143). -/

namespace Sys2Proof.Machine

/-- The exit call (rule R138): the run ends with the whole word `x[10]`; the step is not completed. -/
def State.exitCall (s : State) : State := s.exit (s.reg Config.a0)

/-- The write call (rule R139): `x[12]` bytes from address `x[11]` upwards. An out-of-bounds byte stops the run; the
bytes before it stay in OUT (decision D10). -/
def State.writeCall (s : State) : State :=
  match State.emitBytes (s.reg Config.a2).toNat (s.reg Config.a1).toNat s with
  | (t, none) => t.complete s.pcPlus4
  | (t, some addr) => t.raiseOutOfBounds addr .byte

/-- ECALL (rule R137): the call number is the whole word `x[17]`. -/
def execEcall (s : State) : Host.Outcome State Fault Refusal :=
  if s.reg Config.a7 = Config.exitCall then .next s.exitCall
  else if s.reg Config.a7 = Config.writeCall then .next s.writeCall
  else .next (s.raise .unsupportedSyscall (.callNumber (s.reg Config.a7)))

/-- EBREAK (rule R142). -/
def execEbreak (s : State) : Host.Outcome State Fault Refusal :=
  .next (s.raise .breakpoint (.atPc s.pc))

end Sys2Proof.Machine
end

