-- ==== Sys2Proof/Machine/Fetch.lean ====
section
/-! DEFINITION. Fetching the instruction word, the step of a running machine, and the placing of a word where the next
step fetches it (spec/20_memory.md rule R37, spec/40_step_and_dispatch.md rules R80 to R82). -/

namespace Sys2Proof.Machine

/-- `MemRead(pc, 4)` (rules R37, R81). -/
def State.fetch (s : State) : Option Word := s.memRead s.pc.toNat .word

/-- Decode the fetched word and execute it; a word that is no instruction raises `UnsupportedInstruction`
(rules R82, R85, R153). -/
def execWord (w : Word) (s : State) : Host.Outcome State Fault Refusal :=
  match decodeWord w with
  | .ok i => exec i s
  | .error _ => .next (s.raise .unsupportedInstruction (.word w))

/-- The step of a running machine (rule R80). -/
def runningStep (s : State) : Host.Outcome State Fault Refusal :=
  match s.fetch with
  | none => .next (s.raiseOutOfBounds s.pc.toNat .word)
  | some w => execWord w s

/-- Place a word at the pc as the image load of reset does: memory is extended if it would not fit (rule R172), and the
run is on. -/
def State.placeWord (s : State) (w : Word) : State :=
  { s with mem := s.mem.writeLE s.pc.toNat 4 w
           memLen := max s.memLen (s.pc.toNat + 4)
           run := .running }

end Sys2Proof.Machine
end

