-- ==== Sys2Proof/Machine/Step.lean ====
section
/-! DEFINITION. The step (spec/40_step_and_dispatch.md rule R80) and the host's placing of an instruction. -/

namespace Sys2Proof.Machine

/-- One step. It is defined only while the run is on; a machine whose run is over has none (rules R20, R88, U13). -/
def step (s : State) : Host.Outcome State Fault Refusal :=
  match s.run with
  | .running => runningStep s
  | .exited _ => .fault .runOver
  | .fatal _ _ => .fault .runOver

/-- The instruction of the table's word, placed where the next step fetches it (notes/assumptions/6.md). -/
def State.withFetchWord (s : State) (nbits w : Nat) : State := s.placeWord (tableWord nbits w)

end Sys2Proof.Machine
end

