-- ==== Sys2Proof/Machine/Reset.lean ====
section
/-! DEFINITION. Reset with its arguments (spec/00_scope.md rule R6, spec/70_reset_and_hazards.md rules R170 to R173).
`State.reset` is the value at `ResetArgs.default`. -/

namespace Sys2Proof.Machine

/-- The arguments of reset (rule R6). They are no state. -/
structure ResetArgs where
  /-- MEM_SIZE -/
  memSize : Nat
  /-- IMAGE -/
  image   : List Byte
  /-- BASE -/
  base    : Word
  /-- REG_INIT, the contents of x1 to x31, any 31 words (decision D7) -/
  regInit : Vector Word 31
  /-- MEM_INIT, any byte for each address (decision D8) -/
  memInit : Nat → Byte

/-- The arguments `State.reset` is made with (Config.lean). -/
def ResetArgs.default : ResetArgs :=
  { memSize := Config.memSize, image := Config.image, base := Config.base,
    regInit := Vector.replicate 31 Config.regInit, memInit := fun _ => Config.unlistedByte }

/-- MEM_LEN (rules R6, R172). -/
def ResetArgs.memLen (a : ResetArgs) : Nat := max a.memSize (a.base.toNat + a.image.length)

/-- The memory of MEM_SIZE bytes before the load (rule R171). -/
def initMemory (f : Nat → Byte) : Nat → Memory
  | 0 => []
  | n + 1 => (initMemory f n).setByte n (f n)

/-- Place the image, its first byte at `a` (rule R172). -/
def Memory.loadImage (m : Memory) : Nat → List Byte → Memory
  | _, [] => m
  | a, b :: rest => Memory.loadImage (m.setByte a b) (a + 1) rest

/-- Reset (rules R170 to R173). Arguments past the 32-bit address space are refused (decision D13). The growth gap is
zero because an unlisted byte is. -/
def State.resetWith (a : ResetArgs) : Host.Outcome State Fault Refusal :=
  if a.memSize ≤ Config.addressSpace ∧ a.base.toNat + a.image.length ≤ Config.addressSpace then
    .next { regs   := #v[0#32] ++ a.regInit
            pc     := a.base
            mem    := (initMemory a.memInit a.memSize).loadImage a.base.toNat a.image
            memLen := a.memLen
            run    := .running
            out    := [] }
  else .refused .resetArguments

end Sys2Proof.Machine
end

