-- ==== Sys2Proof/Safety.lean ====
section
/-! DEFINITION. The terms claims use: the invariant of every state between steps, how a run ends, and what a step
changes and leaves unchanged. -/

namespace Sys2Proof.Machine

/-- The byte of memory at an address. -/
def State.byte (s : State) (a : Nat) : Byte := s.mem.byte a

/-- The invariant of every state between steps: x0 reads zero (spec/10_state.md rule R14), memory is in canonical form and
holds nothing past its length (rule R19), and the length is at most the address space (rule R6). -/
structure State.Inv (s : State) : Prop where
  zero   : s.reg 0#5 = 0#32
  wf     : s.mem.wf
  within : ∀ c ∈ s.mem, c.1 < s.memLen
  len    : s.memLen ≤ Config.addressSpace

/-- The run is over (rules R20, R179). -/
def State.isOver (s : State) : Prop := s.run ≠ .running

/-- A good end: the exit call (rule R179). -/
def State.isGoodEnd (s : State) : Prop := ∃ status, s.run = .exited status

/-- A fault state: one of the four fatal conditions (rules R150, R179). -/
def State.isFatal (s : State) : Prop := ∃ c info, s.run = .fatal c info

/-- A safe run has not stopped with a fatal condition. -/
def State.isSafe (s : State) : Prop := ¬ s.isFatal

/-- Nothing but the run status and the output differs: what a step that raises keeps (rules R86, R151). -/
structure SameMachine (s t : State) : Prop where
  regs   : t.regs = s.regs
  pc     : t.pc = s.pc
  mem    : t.mem = s.mem
  memLen : t.memLen = s.memLen

/-- `t` is `s` after an instruction that writes no register and no memory and goes on at `next` (rules R15, R84). -/
structure OnlyMoves (s t : State) (next : Word) : Prop where
  pc     : t.pc = next
  zero   : t.reg 0#5 = 0#32
  regs   : ∀ r : RegIdx, r ≠ 0#5 → t.reg r = s.reg r
  bytes  : ∀ a, t.byte a = s.byte a
  memLen : t.memLen = s.memLen
  run    : t.run = s.run
  out    : t.out = s.out

/-- `t` is `s` after an instruction that writes `v` to `rd` and goes on at `next`: the result and the frame. A write to x0
is discarded (rules R13, R14, R84). -/
structure WroteReg (s t : State) (rd : RegIdx) (v next : Word) : Prop where
  pc     : t.pc = next
  dest   : rd ≠ 0#5 → t.reg rd = v
  zero   : t.reg 0#5 = 0#32
  others : ∀ r : RegIdx, r ≠ 0#5 → r ≠ rd → t.reg r = s.reg r
  bytes  : ∀ a, t.byte a = s.byte a
  memLen : t.memLen = s.memLen
  run    : t.run = s.run
  out    : t.out = s.out

/-- `t` is `s` after an instruction that stores the low `n` bytes of `v` at `addr`, little-endian, and goes on at
`next`: the stored bytes and the frame (rules R33, R118). -/
structure StoredBytes (s t : State) (addr n : Nat) (v next : Word) : Prop where
  pc      : t.pc = next
  zero    : t.reg 0#5 = 0#32
  regs    : ∀ r : RegIdx, r ≠ 0#5 → t.reg r = s.reg r
  stored  : ∀ i, i < n → (t.byte (addr + i)).toNat = v.toNat / 2 ^ (8 * i) % 256
  outside : ∀ a, a < addr ∨ addr + n ≤ a → t.byte a = s.byte a
  memLen  : t.memLen = s.memLen
  run     : t.run = s.run
  out     : t.out = s.out

/-- The run is stopped with the fatal condition `c` and nothing else differs (rule R151). What `info` is, no claim says:
it is informational (decision D15). -/
def StoppedBy (s : State) (c : Condition) (o : Host.Outcome State Fault Refusal) : Prop :=
  ∃ info, o = .next { s with run := .fatal c info }

/-- The instruction takes the fatal condition `c`: a next state in which x, pc, memory and OUT are as before and the run is
`Fatal(c, info)` (rule R151), `info` unsaid (decision D15). -/
def Raises (i : Instr) (s : State) (c : Condition) : Prop :=
  StoppedBy s c (exec i s)

/-- The word of the four bytes at the pc, the byte at the pc the least significant (rule R37). -/
def State.wordAtPc (s : State) : Word :=
  wordOfBytes (s.byte s.pc.toNat) (s.byte (s.pc.toNat + 1)) (s.byte (s.pc.toNat + 2)) (s.byte (s.pc.toNat + 3))

/-- All four bytes at the pc exist (rule R37). -/
def State.canFetch (s : State) : Prop := s.pc.toNat + 4 ≤ s.memLen

/-- The bytes the write call is asked for, in ascending order of address (rule R139). -/
def State.bufferBytes (s : State) : List Byte :=
  (List.range (s.reg 12#5).toNat).map (fun k => s.byte ((s.reg 11#5).toNat + k))

/-- Every byte the write call is asked for exists; none is asked for when the count is zero (rule R139). -/
def State.bufferInBounds (s : State) : Prop :=
  (s.reg 12#5).toNat = 0 ∨ (s.reg 11#5).toNat + (s.reg 12#5).toNat ≤ s.memLen

end Sys2Proof.Machine

namespace Sys2Proof

open Sys2Proof.Machine (State)

/-- Every word with these fixed bits is read as the instruction `f` makes of its fields (rule R58). -/
def RowReads (mask fixed : Word) (f : Word → Instr) : Prop :=
  ∀ w : Word, w &&& mask = fixed → decodeWord w = .ok (f w)

/-! ### What an instruction names (rules R15, R87) -/

/-- The register an instruction writes, if any (rule R15). -/
def Instr.dest : Instr → Option RegIdx
  | .addi rd _ _ | .slti rd _ _ | .sltiu rd _ _ | .xori rd _ _ | .ori rd _ _ | .andi rd _ _ => some rd
  | .slli rd _ _ | .srli rd _ _ | .srai rd _ _ => some rd
  | .add rd _ _ | .sub rd _ _ | .sll rd _ _ | .slt rd _ _ | .sltu rd _ _ => some rd
  | .xor rd _ _ | .srl rd _ _ | .sra rd _ _ | .or rd _ _ | .and rd _ _ => some rd
  | .lb rd _ _ | .lh rd _ _ | .lw rd _ _ | .lbu rd _ _ | .lhu rd _ _ => some rd
  | .sb _ _ _ | .sh _ _ _ | .sw _ _ _ => none
  | .beq _ _ _ | .bne _ _ _ | .blt _ _ _ | .bge _ _ _ | .bltu _ _ _ | .bgeu _ _ _ => none
  | .jal rd _ | .jalr rd _ _ | .lui rd _ | .auipc rd _ => some rd
  | .ecall | .ebreak => none

/-- The registers an instruction reads (rule R15). -/
def Instr.sources : Instr → List RegIdx
  | .addi _ rs1 _ | .slti _ rs1 _ | .sltiu _ rs1 _ | .xori _ rs1 _ | .ori _ rs1 _ | .andi _ rs1 _ => [rs1]
  | .slli _ rs1 _ | .srli _ rs1 _ | .srai _ rs1 _ => [rs1]
  | .add _ rs1 rs2 | .sub _ rs1 rs2 | .sll _ rs1 rs2 | .slt _ rs1 rs2 | .sltu _ rs1 rs2 => [rs1, rs2]
  | .xor _ rs1 rs2 | .srl _ rs1 rs2 | .sra _ rs1 rs2 | .or _ rs1 rs2 | .and _ rs1 rs2 => [rs1, rs2]
  | .lb _ rs1 _ | .lh _ rs1 _ | .lw _ rs1 _ | .lbu _ rs1 _ | .lhu _ rs1 _ => [rs1]
  | .sb rs1 rs2 _ | .sh rs1 rs2 _ | .sw rs1 rs2 _ => [rs1, rs2]
  | .beq rs1 rs2 _ | .bne rs1 rs2 _ | .blt rs1 rs2 _ | .bge rs1 rs2 _ | .bltu rs1 rs2 _ | .bgeu rs1 rs2 _ => [rs1, rs2]
  | .jalr _ rs1 _ => [rs1]
  | .jal _ _ | .lui _ _ | .auipc _ _ => []
  | .ecall => [17#5, 10#5, 11#5, 12#5]
  | .ebreak => []

/-- The instruction is a branch whose condition holds (rules R123 to R128). -/
def Instr.branchHolds : Instr → State → Prop
  | .beq rs1 rs2 _, s => s.reg rs1 = s.reg rs2
  | .bne rs1 rs2 _, s => s.reg rs1 ≠ s.reg rs2
  | .blt rs1 rs2 _, s => (s.reg rs1).toInt < (s.reg rs2).toInt
  | .bge rs1 rs2 _, s => (s.reg rs2).toInt ≤ (s.reg rs1).toInt
  | .bltu rs1 rs2 _, s => (s.reg rs1).toNat < (s.reg rs2).toNat
  | .bgeu rs1 rs2 _, s => (s.reg rs2).toNat ≤ (s.reg rs1).toNat
  | _, _ => False

/-- The offset of a branch or of JAL (rules R122, R130). -/
def Instr.offset : Instr → Word
  | .beq _ _ imm | .bne _ _ imm | .blt _ _ imm | .bge _ _ imm | .bltu _ _ imm | .bgeu _ _ imm => imm
  | .jal _ imm => imm
  | _ => 0#32

/-- The address a store or a load accesses and how many bytes, with the meaning's own address function
(rules R112, R118). -/
def Instr.access : Instr → State → Option (Nat × Nat)
  | .lb _ rs1 imm, s | .lbu _ rs1 imm, s => some ((s.effAddr rs1 imm).toNat, 1)
  | .lh _ rs1 imm, s | .lhu _ rs1 imm, s => some ((s.effAddr rs1 imm).toNat, 2)
  | .lw _ rs1 imm, s => some ((s.effAddr rs1 imm).toNat, 4)
  | .sb rs1 _ imm, s => some ((s.effAddr rs1 imm).toNat, 1)
  | .sh rs1 _ imm, s => some ((s.effAddr rs1 imm).toNat, 2)
  | .sw rs1 _ imm, s => some ((s.effAddr rs1 imm).toNat, 4)
  | _, _ => none

/-- The instruction is a store (rule R118). -/
def Instr.isStore : Instr → Prop
  | .sb _ _ _ | .sh _ _ _ | .sw _ _ _ => True
  | _ => False

end Sys2Proof
end

