-- ==== Sys2Proof/Certificates/Slice0/Obligations.lean ====
section
/-! DEFINITION. The statements for the provers. Each docstring names the rule of spec/ it formalises.

Values are said in the spec's own arithmetic (`toNat`, `toInt`), not in the model's operations. A statement that an
instruction takes a fatal condition says which condition, and that x, pc, memory and OUT are as before; it never says
what `info` is, since "a claim must not mention `info` or text" (decision D15). No statement says which bytes OUT holds
in a fault state beyond what it held before the step (decision D10, U10).

What is not the rules' own words in these statements: that a fatal condition or an exit is a next state whose `run` says
so is the model's form (notes/assumptions/1.md); the numeric encodings in the RowReads clauses are the spec's decision D1
(notes/assumptions/9.md); that sums of addresses wrap is its decision D6 (notes/assumptions/11.md). Where a statement
rests on another decision or on an inference the spec marks as its own, its docstring names it. -/

open Sys2Proof Sys2Proof.Machine

/-! ### The decoder (spec/30_encoding.md) -/

/-- Rule R57: the seven values of `Decode`, for every word. A field `w[hi:lo]` is `(w >> lo) mod 2^(hi-lo+1)` (rule R7). -/
def Obligations.DecoderExtractsSevenValues : Prop :=
  ∀ w : Word,
    (decodeFields w).opcode.toNat = w.toNat % 128 ∧
    (decodeFields w).rd.toNat = w.toNat / 2 ^ 7 % 32 ∧
    (decodeFields w).funct3.toNat = w.toNat / 2 ^ 12 % 8 ∧
    (decodeFields w).rs1.toNat = w.toNat / 2 ^ 15 % 32 ∧
    (decodeFields w).rs2.toNat = w.toNat / 2 ^ 20 % 32 ∧
    (decodeFields w).funct7.toNat = w.toNat / 2 ^ 25 % 128 ∧
    ((decodeFields w).opcode ∈ [0x03#7, 0x13#7, 0x67#7, 0x73#7] → (decodeFields w).imm = immI w) ∧
    ((decodeFields w).opcode = 0x23#7 → (decodeFields w).imm = immS w) ∧
    ((decodeFields w).opcode = 0x63#7 → (decodeFields w).imm = immB w) ∧
    ((decodeFields w).opcode ∈ [0x37#7, 0x17#7] → (decodeFields w).imm = immU w) ∧
    ((decodeFields w).opcode = 0x6F#7 → (decodeFields w).imm = immJ w) ∧
    ((decodeFields w).opcode ∉ [0x03#7, 0x13#7, 0x67#7, 0x73#7, 0x23#7, 0x63#7, 0x37#7, 0x17#7, 0x6F#7] →
      (decodeFields w).imm = 0#32)

/-- Rules R52 to R56: which bit of the word each immediate bit is, for the five layouts. -/
def Obligations.ImmediateBitsComeFromTheirPositions : Prop :=
  ∀ (w : Word) (k : Nat), k < 32 →
    (immI w).getLsbD k = (if k < 11 then w.getLsbD (k + 20) else w.getLsbD 31) ∧
    (immS w).getLsbD k =
      (if k < 5 then w.getLsbD (k + 7) else if k < 11 then w.getLsbD (k + 20) else w.getLsbD 31) ∧
    (immB w).getLsbD k =
      (if k = 0 then false else if k < 5 then w.getLsbD (k + 7) else if k < 11 then w.getLsbD (k + 20)
       else if k = 11 then w.getLsbD 7 else w.getLsbD 31) ∧
    (immU w).getLsbD k = (if k < 12 then false else w.getLsbD k) ∧
    (immJ w).getLsbD k =
      (if k = 0 then false else if k < 11 then w.getLsbD (k + 20) else if k = 11 then w.getLsbD 20
       else if k < 20 then w.getLsbD k else w.getLsbD 31)

/-- Rule R58: a word is an instruction exactly when its fixed bits are that row's; no word is two rows'. -/
def Obligations.WordIsTheRowItsFixedBitsName : Prop :=
  (∀ (w : Word) (i : Instr), decodeWord w = .ok i → w &&& i.rowMask = i.rowMatch) ∧
  (∀ (w : Word) (i : Instr), w &&& i.rowMask = i.rowMatch →
    ∃ j : Instr, decodeWord w = .ok j ∧ j.rowMask = i.rowMask ∧ j.rowMatch = i.rowMatch) ∧
  (∀ (w : Word) (i j : Instr), w &&& i.rowMask = i.rowMatch → w &&& j.rowMask = j.rowMatch →
    i.rowMask = j.rowMask ∧ i.rowMatch = j.rowMatch)

/-- Rule R60: the unsupported words are those of its table, and no others. All rows but the first three are the spec's
decision D2 (notes/assumptions/10.md). -/
def Obligations.UnsupportedWordsAreThoseListed : Prop :=
  ∀ w : Word, (∃ r, decodeWord w = .error r) ↔
    (opcodeField w ∉ [0x03#7, 0x13#7, 0x17#7, 0x23#7, 0x33#7, 0x37#7, 0x63#7, 0x67#7, 0x6F#7, 0x73#7] ∨
     (opcodeField w = 0x03#7 ∧ funct3Field w ∈ [3#3, 6#3, 7#3]) ∨
     (opcodeField w = 0x23#7 ∧ funct3Field w ∈ [3#3, 4#3, 5#3, 6#3, 7#3]) ∨
     (opcodeField w = 0x63#7 ∧ funct3Field w ∈ [2#3, 3#3]) ∨
     (opcodeField w = 0x13#7 ∧ funct3Field w = 1#3 ∧ funct7Field w ≠ 0x00#7) ∨
     (opcodeField w = 0x13#7 ∧ funct3Field w = 5#3 ∧ funct7Field w ∉ [0x00#7, 0x20#7]) ∨
     (opcodeField w = 0x33#7 ∧ (funct7Field w ∉ [0x00#7, 0x20#7] ∨
       (funct7Field w = 0x20#7 ∧ funct3Field w ∉ [0#3, 5#3]))) ∨
     (opcodeField w = 0x73#7 ∧ w.toNat / 2 ^ 20 ∉ [0x000, 0x001]))

/-- Every instruction the decoder reads is well formed: its immediate has the range and shape of rules R52 to R56. -/
def Obligations.DecodedInstructionIsWellFormed : Prop :=
  ∀ (w : Word) (i : Instr), decodeWord w = .ok i → i.wellFormed = true

/-- Decoding an encoded well-formed instruction gives it back, with every operand, and leaves the bytes after it. -/
def Obligations.DecodeOfEncodeIsTheInstruction : Prop :=
  ∀ (i : Instr) (rest : List Byte), i.wellFormed = true → decodeBytes (encodeBytes i ++ rest) = .ok (i, rest)

/-- Encoding what was decoded gives the word back in every bit the core examines (rule R59, decision D3). -/
def Obligations.EncodeOfDecodeIsTheWord : Prop :=
  ∀ (w : Word) (i : Instr), decodeWord w = .ok i → encode i &&& i.examinedMask = w &&& i.examinedMask

/-- Words of spec/95_test_vectors.md section 2.1 and of the rules' examples, one per family, decode to what they are. -/
def Obligations.ExampleWordsDecodeAsWritten : Prop :=
  decodeWord 0xFFF08093#32 = .ok (.addi 1#5 1#5 0xFFFFFFFF#32) ∧
  decodeWord 0x40435293#32 = .ok (.srai 5#5 6#5 4#5) ∧
  decodeWord 0x407302B3#32 = .ok (.sub 5#5 6#5 7#5) ∧
  decodeWord 0xFFC32283#32 = .ok (.lw 5#5 6#5 0xFFFFFFFC#32) ∧
  decodeWord 0xFE732E23#32 = .ok (.sw 6#5 7#5 0xFFFFFFFC#32) ∧
  decodeWord 0x007300E3#32 = .ok (.beq 6#5 7#5 0x00000800#32) ∧
  decodeWord 0x344120EF#32 = .ok (.jal 1#5 0x00012344#32) ∧
  decodeWord 0xFFD300E7#32 = .ok (.jalr 1#5 6#5 0xFFFFFFFD#32) ∧
  decodeWord 0x123452B7#32 = .ok (.lui 5#5 0x12345000#32) ∧
  decodeWord 0x00000073#32 = .ok .ecall ∧
  decodeWord 0x00100073#32 = .ok .ebreak

/-! ### Register-immediate ALU (spec/41_alu_immediate.md) -/

/-- Rule R91, with its encoding, result and frame. -/
def Obligations.AddiAddsTheImmediate : Prop :=
  RowReads 0x0000707F#32 0x00000013#32 (fun w => .addi (rdField w) (rs1Field w) (immI w)) ∧
  ∀ (rd rs1 : RegIdx) (imm : Word) (s : State), ∃ t v,
    exec (.addi rd rs1 imm) s = .next t ∧ WroteReg s t rd v (s.pc + 4#32) ∧
    v.toNat = ((s.reg rs1).toNat + imm.toNat) % 2 ^ 32

/-- Rules R92 and R93: 1 or 0, by the signed and by the unsigned comparison with the sign-extended immediate. -/
def Obligations.SltiAndSltiuCompareWithTheImmediate : Prop :=
  RowReads 0x0000707F#32 0x00002013#32 (fun w => .slti (rdField w) (rs1Field w) (immI w)) ∧
  RowReads 0x0000707F#32 0x00003013#32 (fun w => .sltiu (rdField w) (rs1Field w) (immI w)) ∧
  ∀ (rd rs1 : RegIdx) (imm : Word) (s : State),
    (∃ t, exec (.slti rd rs1 imm) s = .next t ∧
      WroteReg s t rd (if (s.reg rs1).toInt < imm.toInt then 1#32 else 0#32) (s.pc + 4#32)) ∧
    (∃ t, exec (.sltiu rd rs1 imm) s = .next t ∧
      WroteReg s t rd (if (s.reg rs1).toNat < imm.toNat then 1#32 else 0#32) (s.pc + 4#32))

/-- Rules R94 to R96, bit by bit. -/
def Obligations.XoriOriAndiActOnEachBit : Prop :=
  RowReads 0x0000707F#32 0x00004013#32 (fun w => .xori (rdField w) (rs1Field w) (immI w)) ∧
  RowReads 0x0000707F#32 0x00006013#32 (fun w => .ori (rdField w) (rs1Field w) (immI w)) ∧
  RowReads 0x0000707F#32 0x00007013#32 (fun w => .andi (rdField w) (rs1Field w) (immI w)) ∧
  ∀ (rd rs1 : RegIdx) (imm : Word) (s : State),
    (∃ t v, exec (.xori rd rs1 imm) s = .next t ∧ WroteReg s t rd v (s.pc + 4#32) ∧
      ∀ k, v.getLsbD k = ((s.reg rs1).getLsbD k != imm.getLsbD k)) ∧
    (∃ t v, exec (.ori rd rs1 imm) s = .next t ∧ WroteReg s t rd v (s.pc + 4#32) ∧
      ∀ k, v.getLsbD k = ((s.reg rs1).getLsbD k || imm.getLsbD k)) ∧
    (∃ t v, exec (.andi rd rs1 imm) s = .next t ∧ WroteReg s t rd v (s.pc + 4#32) ∧
      ∀ k, v.getLsbD k = ((s.reg rs1).getLsbD k && imm.getLsbD k))

/-- Rules R97 to R99: the low 32 bits of the product by a power of two, the quotient, and the floor of the signed
quotient. That the amount is five bits is the spec's decision D4 (notes/assumptions/11.md). -/
def Obligations.SlliSrliSraiShiftByTheAmount : Prop :=
  RowReads 0xFE00707F#32 0x00001013#32 (fun w => .slli (rdField w) (rs1Field w) (rs2Field w)) ∧
  RowReads 0xFE00707F#32 0x00005013#32 (fun w => .srli (rdField w) (rs1Field w) (rs2Field w)) ∧
  RowReads 0xFE00707F#32 0x40005013#32 (fun w => .srai (rdField w) (rs1Field w) (rs2Field w)) ∧
  ∀ (rd rs1 : RegIdx) (shamt : BitVec 5) (s : State),
    (∃ t v, exec (.slli rd rs1 shamt) s = .next t ∧ WroteReg s t rd v (s.pc + 4#32) ∧
      v.toNat = (s.reg rs1).toNat * 2 ^ shamt.toNat % 2 ^ 32) ∧
    (∃ t v, exec (.srli rd rs1 shamt) s = .next t ∧ WroteReg s t rd v (s.pc + 4#32) ∧
      v.toNat = (s.reg rs1).toNat / 2 ^ shamt.toNat) ∧
    (∃ t v, exec (.srai rd rs1 shamt) s = .next t ∧ WroteReg s t rd v (s.pc + 4#32) ∧
      v.toInt = (s.reg rs1).toInt / 2 ^ shamt.toNat)

/-! ### Register-register ALU (spec/42_alu_register.md) -/

/-- Rules R102 and R103: modulo 2^32. -/
def Obligations.AddAndSubAreModuloTwoPow32 : Prop :=
  RowReads 0xFE00707F#32 0x00000033#32 (fun w => .add (rdField w) (rs1Field w) (rs2Field w)) ∧
  RowReads 0xFE00707F#32 0x40000033#32 (fun w => .sub (rdField w) (rs1Field w) (rs2Field w)) ∧
  ∀ (rd rs1 rs2 : RegIdx) (s : State),
    (∃ t v, exec (.add rd rs1 rs2) s = .next t ∧ WroteReg s t rd v (s.pc + 4#32) ∧
      v.toNat = ((s.reg rs1).toNat + (s.reg rs2).toNat) % 2 ^ 32) ∧
    (∃ t v, exec (.sub rd rs1 rs2) s = .next t ∧ WroteReg s t rd v (s.pc + 4#32) ∧
      (v.toNat : Int) = ((s.reg rs1).toNat - (s.reg rs2).toNat : Int) % 2 ^ 32)

/-- Rules R104, R108 and R109: the amount is the low five bits of `x[rs2]`. -/
def Obligations.SllSrlSraShiftByTheLowFiveBits : Prop :=
  RowReads 0xFE00707F#32 0x00001033#32 (fun w => .sll (rdField w) (rs1Field w) (rs2Field w)) ∧
  RowReads 0xFE00707F#32 0x00005033#32 (fun w => .srl (rdField w) (rs1Field w) (rs2Field w)) ∧
  RowReads 0xFE00707F#32 0x40005033#32 (fun w => .sra (rdField w) (rs1Field w) (rs2Field w)) ∧
  ∀ (rd rs1 rs2 : RegIdx) (s : State),
    (∃ t v, exec (.sll rd rs1 rs2) s = .next t ∧ WroteReg s t rd v (s.pc + 4#32) ∧
      v.toNat = (s.reg rs1).toNat * 2 ^ ((s.reg rs2).toNat % 32) % 2 ^ 32) ∧
    (∃ t v, exec (.srl rd rs1 rs2) s = .next t ∧ WroteReg s t rd v (s.pc + 4#32) ∧
      v.toNat = (s.reg rs1).toNat / 2 ^ ((s.reg rs2).toNat % 32)) ∧
    (∃ t v, exec (.sra rd rs1 rs2) s = .next t ∧ WroteReg s t rd v (s.pc + 4#32) ∧
      v.toInt = (s.reg rs1).toInt / 2 ^ ((s.reg rs2).toNat % 32))

/-- Rules R105 and R106. -/
def Obligations.SltAndSltuCompareRegisters : Prop :=
  RowReads 0xFE00707F#32 0x00002033#32 (fun w => .slt (rdField w) (rs1Field w) (rs2Field w)) ∧
  RowReads 0xFE00707F#32 0x00003033#32 (fun w => .sltu (rdField w) (rs1Field w) (rs2Field w)) ∧
  ∀ (rd rs1 rs2 : RegIdx) (s : State),
    (∃ t, exec (.slt rd rs1 rs2) s = .next t ∧
      WroteReg s t rd (if (s.reg rs1).toInt < (s.reg rs2).toInt then 1#32 else 0#32) (s.pc + 4#32)) ∧
    (∃ t, exec (.sltu rd rs1 rs2) s = .next t ∧
      WroteReg s t rd (if (s.reg rs1).toNat < (s.reg rs2).toNat then 1#32 else 0#32) (s.pc + 4#32))

/-- Rules R107, R110 and R111, bit by bit. -/
def Obligations.XorOrAndActOnEachBit : Prop :=
  RowReads 0xFE00707F#32 0x00004033#32 (fun w => .xor (rdField w) (rs1Field w) (rs2Field w)) ∧
  RowReads 0xFE00707F#32 0x00006033#32 (fun w => .or (rdField w) (rs1Field w) (rs2Field w)) ∧
  RowReads 0xFE00707F#32 0x00007033#32 (fun w => .and (rdField w) (rs1Field w) (rs2Field w)) ∧
  ∀ (rd rs1 rs2 : RegIdx) (s : State),
    (∃ t v, exec (.xor rd rs1 rs2) s = .next t ∧ WroteReg s t rd v (s.pc + 4#32) ∧
      ∀ k, v.getLsbD k = ((s.reg rs1).getLsbD k != (s.reg rs2).getLsbD k)) ∧
    (∃ t v, exec (.or rd rs1 rs2) s = .next t ∧ WroteReg s t rd v (s.pc + 4#32) ∧
      ∀ k, v.getLsbD k = ((s.reg rs1).getLsbD k || (s.reg rs2).getLsbD k)) ∧
    (∃ t v, exec (.and rd rs1 rs2) s = .next t ∧ WroteReg s t rd v (s.pc + 4#32) ∧
      ∀ k, v.getLsbD k = ((s.reg rs1).getLsbD k && (s.reg rs2).getLsbD k))

/-! ### Loads and stores (spec/43_load_store.md). No alignment is asked of the address. -/

/-- Rules R113 and R116: the byte at `x[rs1] + imm` modulo 2^32, sign- or zero-extended; out of bounds, the fatal
condition. -/
def Obligations.LbAndLbuLoadOneByte : Prop :=
  RowReads 0x0000707F#32 0x00000003#32 (fun w => .lb (rdField w) (rs1Field w) (immI w)) ∧
  RowReads 0x0000707F#32 0x00004003#32 (fun w => .lbu (rdField w) (rs1Field w) (immI w)) ∧
  ∀ (rd rs1 : RegIdx) (imm : Word) (s : State) (ea : Nat), ea = ((s.reg rs1).toNat + imm.toNat) % 2 ^ 32 →
    (ea < s.memLen →
      (∃ t v, exec (.lb rd rs1 imm) s = .next t ∧ WroteReg s t rd v (s.pc + 4#32) ∧ v.toInt = (s.byte ea).toInt) ∧
      (∃ t v, exec (.lbu rd rs1 imm) s = .next t ∧ WroteReg s t rd v (s.pc + 4#32) ∧ v.toNat = (s.byte ea).toNat)) ∧
    (s.memLen ≤ ea → Raises (.lb rd rs1 imm) s .outOfBounds ∧ Raises (.lbu rd rs1 imm) s .outOfBounds)

/-- Rules R114 and R117: two bytes, the one at the lower address the less significant. -/
def Obligations.LhAndLhuLoadTwoBytes : Prop :=
  RowReads 0x0000707F#32 0x00001003#32 (fun w => .lh (rdField w) (rs1Field w) (immI w)) ∧
  RowReads 0x0000707F#32 0x00005003#32 (fun w => .lhu (rdField w) (rs1Field w) (immI w)) ∧
  ∀ (rd rs1 : RegIdx) (imm : Word) (s : State) (ea : Nat), ea = ((s.reg rs1).toNat + imm.toNat) % 2 ^ 32 →
    (ea + 2 ≤ s.memLen →
      (∃ t v, exec (.lh rd rs1 imm) s = .next t ∧ WroteReg s t rd v (s.pc + 4#32) ∧
        v.toInt = (s.byte ea).toNat + 256 * (s.byte (ea + 1)).toInt) ∧
      (∃ t v, exec (.lhu rd rs1 imm) s = .next t ∧ WroteReg s t rd v (s.pc + 4#32) ∧
        v.toNat = (s.byte ea).toNat + 256 * (s.byte (ea + 1)).toNat)) ∧
    (s.memLen < ea + 2 → Raises (.lh rd rs1 imm) s .outOfBounds ∧ Raises (.lhu rd rs1 imm) s .outOfBounds)

/-- Rule R115: four bytes, little-endian. -/
def Obligations.LwLoadsFourBytes : Prop :=
  RowReads 0x0000707F#32 0x00002003#32 (fun w => .lw (rdField w) (rs1Field w) (immI w)) ∧
  ∀ (rd rs1 : RegIdx) (imm : Word) (s : State) (ea : Nat), ea = ((s.reg rs1).toNat + imm.toNat) % 2 ^ 32 →
    (ea + 4 ≤ s.memLen →
      ∃ t v, exec (.lw rd rs1 imm) s = .next t ∧ WroteReg s t rd v (s.pc + 4#32) ∧
        v.toNat = (s.byte ea).toNat + 2 ^ 8 * (s.byte (ea + 1)).toNat + 2 ^ 16 * (s.byte (ea + 2)).toNat
          + 2 ^ 24 * (s.byte (ea + 3)).toNat) ∧
    (s.memLen < ea + 4 → Raises (.lw rd rs1 imm) s .outOfBounds)

/-- Rules R119 to R121: the low 1, 2 or 4 bytes of `x[rs2]` at the address the meaning's own `effAddr` gives, which is
`x[rs1] + imm` modulo 2^32; every other byte and every register unchanged; out of bounds, nothing is written. -/
def Obligations.SbShSwStoreTheLowBytes : Prop :=
  RowReads 0x0000707F#32 0x00000023#32 (fun w => .sb (rs1Field w) (rs2Field w) (immS w)) ∧
  RowReads 0x0000707F#32 0x00001023#32 (fun w => .sh (rs1Field w) (rs2Field w) (immS w)) ∧
  RowReads 0x0000707F#32 0x00002023#32 (fun w => .sw (rs1Field w) (rs2Field w) (immS w)) ∧
  ∀ (rs1 rs2 : RegIdx) (imm : Word) (s : State) (ea : Nat), ea = (s.effAddr rs1 imm).toNat →
    ea = ((s.reg rs1).toNat + imm.toNat) % 2 ^ 32 ∧
    (s.mem.wf → ea + 1 ≤ s.memLen →
      ∃ t, exec (.sb rs1 rs2 imm) s = .next t ∧ StoredBytes s t ea 1 (s.reg rs2) (s.pc + 4#32)) ∧
    (s.mem.wf → ea + 2 ≤ s.memLen →
      ∃ t, exec (.sh rs1 rs2 imm) s = .next t ∧ StoredBytes s t ea 2 (s.reg rs2) (s.pc + 4#32)) ∧
    (s.mem.wf → ea + 4 ≤ s.memLen →
      ∃ t, exec (.sw rs1 rs2 imm) s = .next t ∧ StoredBytes s t ea 4 (s.reg rs2) (s.pc + 4#32)) ∧
    (s.memLen < ea + 1 → Raises (.sb rs1 rs2 imm) s .outOfBounds) ∧
    (s.memLen < ea + 2 → Raises (.sh rs1 rs2 imm) s .outOfBounds) ∧
    (s.memLen < ea + 4 → Raises (.sw rs1 rs2 imm) s .outOfBounds)

/-! ### Branches (spec/44_branch.md) -/

/-- Rules R123 and R124. -/
def Obligations.BeqAndBneCompareBitPatterns : Prop :=
  RowReads 0x0000707F#32 0x00000063#32 (fun w => .beq (rs1Field w) (rs2Field w) (immB w)) ∧
  RowReads 0x0000707F#32 0x00001063#32 (fun w => .bne (rs1Field w) (rs2Field w) (immB w)) ∧
  ∀ (rs1 rs2 : RegIdx) (imm : Word) (s : State),
    (∃ t, exec (.beq rs1 rs2 imm) s = .next t ∧
      OnlyMoves s t (if (s.reg rs1).toNat = (s.reg rs2).toNat then s.pc + imm else s.pc + 4#32)) ∧
    (∃ t, exec (.bne rs1 rs2 imm) s = .next t ∧
      OnlyMoves s t (if (s.reg rs1).toNat = (s.reg rs2).toNat then s.pc + 4#32 else s.pc + imm))

/-- Rules R125 and R126: both words read as two's complement. -/
def Obligations.BltAndBgeCompareSigned : Prop :=
  RowReads 0x0000707F#32 0x00004063#32 (fun w => .blt (rs1Field w) (rs2Field w) (immB w)) ∧
  RowReads 0x0000707F#32 0x00005063#32 (fun w => .bge (rs1Field w) (rs2Field w) (immB w)) ∧
  ∀ (rs1 rs2 : RegIdx) (imm : Word) (s : State),
    (∃ t, exec (.blt rs1 rs2 imm) s = .next t ∧
      OnlyMoves s t (if (s.reg rs1).toInt < (s.reg rs2).toInt then s.pc + imm else s.pc + 4#32)) ∧
    (∃ t, exec (.bge rs1 rs2 imm) s = .next t ∧
      OnlyMoves s t (if (s.reg rs2).toInt ≤ (s.reg rs1).toInt then s.pc + imm else s.pc + 4#32))

/-- Rules R127 and R128: both words read as naturals. -/
def Obligations.BltuAndBgeuCompareUnsigned : Prop :=
  RowReads 0x0000707F#32 0x00006063#32 (fun w => .bltu (rs1Field w) (rs2Field w) (immB w)) ∧
  RowReads 0x0000707F#32 0x00007063#32 (fun w => .bgeu (rs1Field w) (rs2Field w) (immB w)) ∧
  ∀ (rs1 rs2 : RegIdx) (imm : Word) (s : State),
    (∃ t, exec (.bltu rs1 rs2 imm) s = .next t ∧
      OnlyMoves s t (if (s.reg rs1).toNat < (s.reg rs2).toNat then s.pc + imm else s.pc + 4#32)) ∧
    (∃ t, exec (.bgeu rs1 rs2 imm) s = .next t ∧
      OnlyMoves s t (if (s.reg rs2).toNat ≤ (s.reg rs1).toNat then s.pc + imm else s.pc + 4#32))

/-- Rule R129: with the same operands and offset exactly one of each pair of branches is taken. For BEQ and BNE it is the
spec's own inference ("derived: from rules R123 and R124"). -/
def Obligations.ComplementaryBranchesSplit : Prop :=
  ∀ (rs1 rs2 : RegIdx) (imm : Word) (s : State) (i j : Instr),
    (i, j) ∈ [(Instr.blt rs1 rs2 imm, Instr.bge rs1 rs2 imm), (Instr.bltu rs1 rs2 imm, Instr.bgeu rs1 rs2 imm),
              (Instr.beq rs1 rs2 imm, Instr.bne rs1 rs2 imm)] →
    (i.branchHolds s ↔ ¬ j.branchHolds s) ∧
    ∃ t u, exec i s = .next t ∧ exec j s = .next u ∧
      ((t.pc = s.pc + imm ∧ u.pc = s.pc + 4#32) ∨ (t.pc = s.pc + 4#32 ∧ u.pc = s.pc + imm))

/-! ### Jumps and upper immediates (spec/45_jump_upper.md) -/

/-- Rule R130. -/
def Obligations.JalLinksAndJumpsRelative : Prop :=
  RowReads 0x0000007F#32 0x0000006F#32 (fun w => .jal (rdField w) (immJ w)) ∧
  ∀ (rd : RegIdx) (imm : Word) (s : State),
    ∃ t, exec (.jal rd imm) s = .next t ∧ WroteReg s t rd (s.pc + 4#32) (s.pc + imm)

/-- Rule R131: the target is the sum with its low bit forced to zero, from the old `x[rs1]` also when `rd = rs1`;
`funct3` is not examined. The first is the spec's decision D12 (notes/assumptions/13.md), the second its decision D3
(notes/assumptions/10.md). -/
def Obligations.JalrLinksAndJumpsToTheEvenSum : Prop :=
  RowReads 0x0000007F#32 0x00000067#32 (fun w => .jalr (rdField w) (rs1Field w) (immI w)) ∧
  ∀ (rd rs1 : RegIdx) (imm : Word) (s : State), ∃ t target,
    exec (.jalr rd rs1 imm) s = .next t ∧ WroteReg s t rd (s.pc + 4#32) target ∧
    target.toNat = ((s.reg rs1).toNat + imm.toNat) % 2 ^ 32 / 2 * 2

/-- Rule R132. -/
def Obligations.LuiLoadsTheUpperImmediate : Prop :=
  RowReads 0x0000007F#32 0x00000037#32 (fun w => .lui (rdField w) (immU w)) ∧
  ∀ (rd : RegIdx) (imm : Word) (s : State),
    ∃ t, exec (.lui rd imm) s = .next t ∧ WroteReg s t rd imm (s.pc + 4#32)

/-- Rule R133: the pc added is the AUIPC's own address. -/
def Obligations.AuipcAddsTheUpperImmediateToThePc : Prop :=
  RowReads 0x0000007F#32 0x00000017#32 (fun w => .auipc (rdField w) (immU w)) ∧
  ∀ (rd : RegIdx) (imm : Word) (s : State), ∃ t v,
    exec (.auipc rd imm) s = .next t ∧ WroteReg s t rd v (s.pc + 4#32) ∧
    v.toNat = (s.pc.toNat + imm.toNat) % 2 ^ 32

/-! ### System class (spec/46_system.md) -/

/-- Rules R136 and R141: the immediate alone selects; `funct3`, `rd`, `rs1` are not examined (the spec's decisions D2 and
D3, notes/assumptions/10.md). -/
def Obligations.SystemClassSelectsOnTheImmediate : Prop :=
  ∀ (w : Word) (s : State), opcodeField w = 0x73#7 →
    (immI w = 0#32 → execWord w s = exec .ecall s) ∧
    (immI w = 1#32 → execWord w s = exec .ebreak s) ∧
    (immI w ≠ 0#32 → immI w ≠ 1#32 → StoppedBy s .unsupportedInstruction (execWord w s))

/-- Rule R138: the exit call ends the run with the whole word `x[10]` and changes nothing else, the pc included (the spec's
decisions D9 and D14, notes/assumptions/1.md and 14.md). -/
def Obligations.ExitCallEndsTheRun : Prop :=
  ∀ s : State, s.reg 17#5 = 1#32 → exec .ecall s = .next { s with run := .exited (s.reg 10#5) }

/-- The completing part of rule R139: the write call emits the `x[12]` bytes at `x[11]` in ascending order and goes on at
`pc + 4`; no register and no byte of memory changes; a count of zero reads nothing. That no register changes is the spec's
decision D11 (notes/assumptions/12.md). -/
def Obligations.WriteCallEmitsTheBuffer : Prop :=
  ∀ s : State, s.reg 17#5 = 4#32 → s.bufferInBounds → ∃ t, exec .ecall s = .next t ∧
    t.out = s.out ++ s.bufferBytes ∧ OnlyMoves { s with out := s.out ++ s.bufferBytes } t (s.pc + 4#32)

/-- The stopping part of rule R139: a buffer byte out of bounds stops the run; x, pc and memory are as before. Of OUT it
says only that what was emitted before stays (decision D10, U10). -/
def Obligations.WriteCallOutOfBoundsStops : Prop :=
  ∀ s : State, s.reg 17#5 = 4#32 → ¬ s.bufferInBounds → ∃ t info, exec .ecall s = .next t ∧
    SameMachine s t ∧ t.run = .fatal .outOfBounds info ∧ s.out <+: t.out

/-- Rule R140: every other call number is fatal. -/
def Obligations.OtherCallNumbersStop : Prop :=
  ∀ s : State, s.reg 17#5 ≠ 1#32 → s.reg 17#5 ≠ 4#32 → Raises .ecall s .unsupportedSyscall

/-- Rule R142: EBREAK always takes the breakpoint condition; x, pc, memory and OUT are unchanged. -/
def Obligations.EbreakStopsAtItsAddress : Prop :=
  RowReads 0xFFF0007F#32 0x00100073#32 (fun _ => .ebreak) ∧
  ∀ s : State, ∃ info, exec .ebreak s = .next { s with run := .fatal .breakpoint info }

/-! ### Memory (spec/20_memory.md) -/

/-- Rules R32 and R34: the value read, and when there is none. -/
def Obligations.MemReadIsTheLittleEndianSum : Prop :=
  ∀ (s : State) (a : Nat) (w : Width),
    (a + w.bytes ≤ s.memLen → ∃ v, s.memRead a w = some v ∧
      v.toNat = ((List.range w.bytes).map (fun k => (s.byte (a + k)).toNat * 2 ^ (8 * k))).sum) ∧
    (s.memLen < a + w.bytes → s.memRead a w = none)

/-- Rule R33: what a write changes; a write out of bounds writes nothing. -/
def Obligations.MemWriteStoresTheLowBytes : Prop :=
  ∀ (s : State) (a : Nat) (w : Width) (v : Word), s.mem.wf →
    (a + w.bytes ≤ s.memLen → ∃ t, s.memWrite a w v = some t ∧
      (∀ k, k < w.bytes → (t.byte (a + k)).toNat = v.toNat / 2 ^ (8 * k) % 2 ^ 8) ∧
      (∀ x, x < a ∨ a + w.bytes ≤ x → t.byte x = s.byte x) ∧
      t.regs = s.regs ∧ t.pc = s.pc ∧ t.memLen = s.memLen ∧ t.run = s.run ∧ t.out = s.out) ∧
    (s.memLen < a + w.bytes → s.memWrite a w v = none)

/-- Rule R35: the round trip, with the bound the spec infers from rule R34. -/
def Obligations.ReadAfterWriteGivesTheLowBits : Prop :=
  ∀ (s : State) (a : Nat) (w : Width) (v : Word), s.mem.wf → a + w.bytes ≤ s.memLen →
    ∃ t r, s.memWrite a w v = some t ∧ t.memRead a w = some r ∧ r.toNat = v.toNat % 2 ^ (8 * w.bytes)

/-! ### Whole-machine rules about instructions -/

/-- Every instruction of the table answers a next state in every state: none faults and none is refused. That the stops of
rules R138 and R151 are next states is the model's choice (notes/assumptions/1.md). -/
def Obligations.EveryInstructionAnswersANextState : Prop :=
  ∀ (i : Instr) (s : State), ∃ t, exec i s = .next t

/-- Rule R14: every completed instruction leaves x0 zero whatever it computed, an instruction that stops the run changes
no register, and reset sets x0 to zero; so x0 reads zero in every state between steps. (The mechanism is the spec's
decision D20, observably the same as skipping the write.) -/
def Obligations.RegisterZeroReadsZero : Prop :=
  (∀ (i : Instr) (s t : State), exec i s = .next t → s.run = .running → t.run = .running → t.reg 0#5 = 0#32) ∧
  (∀ (i : Instr) (s t : State), exec i s = .next t → s.run = .running → t.run ≠ .running → t.regs = s.regs) ∧
  (∀ (a : ResetArgs) (s : State), State.resetWith a = .next s → s.reg 0#5 = 0#32) ∧
  (∀ s t : State, s.reg 0#5 = 0#32 → step s = .next t → t.reg 0#5 = 0#32)

/-- Rules R13 and R15 (the table of R15 is the spec's inference): an instruction writes at most one register other than x0,
the one its `rd` names. -/
def Obligations.OnlyTheDestinationRegisterChanges : Prop :=
  ∀ (i : Instr) (s t : State) (r : RegIdx), exec i s = .next t → r ≠ 0#5 → i.dest ≠ some r → t.reg r = s.reg r

/-- Rule R15 (a table the spec infers from the instruction rules): an instruction's outcome does not depend on a register
it does not read. -/
def Obligations.OutcomeDependsOnlyOnTheSources : Prop :=
  ∀ (i : Instr) (s s' t t' : State), exec i s = .next t → exec i s' = .next t' →
    (∀ r ∈ i.sources, s'.reg r = s.reg r) →
    s'.pc = s.pc → s'.mem = s.mem → s'.memLen = s.memLen → s'.run = s.run → s'.out = s.out →
    t'.pc = t.pc ∧ t'.mem = t.mem ∧ t'.memLen = t.memLen ∧ t'.run = t.run ∧ t'.out = t.out ∧
    ∀ r, i.dest = some r → t.run = .running → t'.reg r = t.reg r

/-- Only stores change memory, and only the bytes they address. -/
def Obligations.OnlyStoresChangeMemory : Prop :=
  ∀ (i : Instr) (s t : State), s.mem.wf → exec i s = .next t →
    (¬ i.isStore → ∀ a, t.byte a = s.byte a) ∧
    (∀ addr n, i.isStore → i.access s = some (addr, n) → ∀ a, a < addr ∨ addr + n ≤ a → t.byte a = s.byte a)

/-- Only the write call changes OUT (rule R21). -/
def Obligations.OnlyTheWriteCallEmits : Prop :=
  ∀ (i : Instr) (s t : State), exec i s = .next t → t.out ≠ s.out → i = .ecall ∧ s.reg 17#5 = 4#32

/-- Rule R87: the pc after a completed instruction (sums modulo 2^32: the spec's decision D6). -/
def Obligations.PcSequencerFollowsTheInstruction : Prop :=
  ∀ (i : Instr) (s t : State), exec i s = .next t → t.run = .running →
    (∀ rd imm, i = .jal rd imm → t.pc = s.pc + imm) ∧
    (∀ rd rs1 imm, i = .jalr rd rs1 imm → t.pc = (s.reg rs1 + imm) &&& 0xFFFFFFFE#32) ∧
    (i.branchHolds s → t.pc = s.pc + i.offset) ∧
    ((∀ rd imm, i ≠ .jal rd imm) → (∀ rd rs1 imm, i ≠ .jalr rd rs1 imm) → ¬ i.branchHolds s → t.pc = s.pc + 4#32)

/-! ### The step (spec/40_step_and_dispatch.md, spec/60_exceptions.md) -/

/-- Rules R80 to R82: a running machine whose bytes at the pc decode to an instruction executes it; the step adds
nothing around it (moving the pc is the last action of the instruction itself). -/
def Obligations.StepExecutesTheDecodedInstruction : Prop :=
  ∀ (s : State) (i : Instr), s.run = .running → s.canFetch →
    decodeBytes [s.byte s.pc.toNat, s.byte (s.pc.toNat + 1), s.byte (s.pc.toNat + 2), s.byte (s.pc.toNat + 3)]
      = .ok (i, []) →
    step s = exec i s

/-- Rule R81: a fetch that reaches past memory stops the run. -/
def Obligations.FetchOutOfBoundsStops : Prop :=
  ∀ s : State, s.run = .running → ¬ s.canFetch → StoppedBy s .outOfBounds (step s)

/-- Rule R153: executing a word that is no instruction stops the run and leaves the state as before the fetch. Which words
those are is partly the spec's decision D2 (notes/assumptions/10.md). -/
def Obligations.UnsupportedInstructionStops : Prop :=
  ∀ (s : State) (r : DecodeReject), s.run = .running → s.canFetch → decodeWord s.wordAtPc = .error r →
    StoppedBy s .unsupportedInstruction (step s)

/-- A machine whose run is over takes no step (rules R20, R88). That `step` answers the fault `runOver` is the model's
form of it (notes/assumptions/2.md). -/
def Obligations.StoppedMachineTakesNoStep : Prop :=
  ∀ s : State, s.run ≠ .running → step s = .fault .runOver

/-- Rule R86: the three outcomes of a step. -/
def Obligations.StepCompletesOrStopsWhole : Prop :=
  ∀ s : State, s.run = .running → ∃ t, step s = .next t ∧
    (t.run = .running ∨ (SameMachine s t ∧ t.out = s.out ∧ t.isGoodEnd) ∨ (SameMachine s t ∧ s.out <+: t.out ∧ t.isFatal))

/-- Rules R88, R150 and R159: what stopped the run, for each way it can have stopped. -/
def Obligations.EachStopHasItsCause : Prop :=
  ∀ s t : State, step s = .next t → t.run ≠ .running →
    (∀ status, t.run = .exited status →
      s.canFetch ∧ decodeWord s.wordAtPc = .ok .ecall ∧ s.reg 17#5 = 1#32 ∧ status = s.reg 10#5) ∧
    (∀ info, t.run = .fatal .breakpoint info → s.canFetch ∧ decodeWord s.wordAtPc = .ok .ebreak) ∧
    (∀ info, t.run = .fatal .unsupportedSyscall info →
      s.canFetch ∧ decodeWord s.wordAtPc = .ok .ecall ∧ s.reg 17#5 ≠ 1#32 ∧ s.reg 17#5 ≠ 4#32) ∧
    (∀ info, t.run = .fatal .unsupportedInstruction info → s.canFetch ∧ ∃ r, decodeWord s.wordAtPc = .error r) ∧
    (∀ info, t.run = .fatal .outOfBounds info → ¬ s.canFetch ∨ (s.canFetch ∧ ∃ i, decodeWord s.wordAtPc = .ok i ∧
      ((∃ addr n, i.access s = some (addr, n) ∧ s.memLen < addr + n) ∨
       (i = .ecall ∧ s.reg 17#5 = 4#32 ∧ ¬ s.bufferInBounds))))

/-- Rule R44 (the spec's inference from rules R37 and R41): a word stored over the next instruction is the word the next
step fetches. -/
def Obligations.NextFetchSeesTheStore : Prop :=
  ∀ (rs1 rs2 : RegIdx) (imm : Word) (s t : State), s.mem.wf → s.run = .running →
    exec (.sw rs1 rs2 imm) s = .next t → t.run = .running → (s.effAddr rs1 imm) = s.pc + 4#32 →
    t.canFetch ∧ t.wordAtPc = s.reg rs2

/-- A program cannot read OUT (rule R21): what was emitted before a step changes nothing the step does. -/
def Obligations.OutputIsNotRead : Prop :=
  ∀ (s t : State) (o : List Byte), step s = .next t →
    step { s with out := o ++ s.out } = .next { t with out := o ++ t.out }

/-! ### Invariants every step keeps -/

/-- x0 reads zero, memory is in canonical form within its length, the length is at most 2^32: every step keeps it. -/
def Obligations.StepKeepsTheInvariant : Prop :=
  ∀ s t : State, s.Inv → step s = .next t → t.Inv

/-- The invariant holds right after reset. -/
def Obligations.ResetMeetsTheInvariant : Prop :=
  State.reset.Inv

/-- The invariant holds after reset with any arguments that are not refused. -/
def Obligations.ResetWithAnyArgumentsMeetsTheInvariant : Prop :=
  ∀ (a : ResetArgs) (s : State), State.resetWith a = .next s → s.Inv

/-- The memory length is constant over a run (rule R19, the spec's decision D13), and OUT only grows (rule R21). -/
def Obligations.MemoryLengthIsConstantAndOutputGrows : Prop :=
  ∀ s t : State, step s = .next t → t.memLen = s.memLen ∧ s.out <+: t.out

/-- Rule R18: from an even pc no instruction produces an odd pc (the spec's inference from rules R17, R54, R56, R131). -/
def Obligations.EvenPcStaysEven : Prop :=
  ∀ s t : State, s.pc.toNat % 2 = 0 → step s = .next t → t.pc.toNat % 2 = 0

/-! ### Reset (spec/70_reset_and_hazards.md) and the host's placing of an instruction -/

/-- Rules R27, R172 and R173: every piece of state after reset, for all arguments (REG_INIT and MEM_INIT are the spec's
decisions D7 and D8), and which arguments are refused (decision D13). -/
def Obligations.ResetGivesEveryPieceItsValue : Prop :=
  ∀ a : ResetArgs,
    (a.memSize ≤ 2 ^ 32 ∧ a.base.toNat + a.image.length ≤ 2 ^ 32 → ∃ s, State.resetWith a = .next s ∧
      s.reg 0#5 = 0#32 ∧
      (∀ (k : Nat) (h : k < 31), s.reg (BitVec.ofNat 5 (k + 1)) = a.regInit[k]) ∧
      s.pc = a.base ∧
      s.memLen = max a.memSize (a.base.toNat + a.image.length) ∧
      (∀ (k : Nat) (h : k < a.image.length), s.byte (a.base.toNat + k) = a.image[k]) ∧
      (∀ x, a.memSize ≤ x → x < a.base.toNat → s.byte x = 0#8) ∧
      (∀ x, x < a.memSize → (x < a.base.toNat ∨ a.base.toNat + a.image.length ≤ x) → s.byte x = a.memInit x) ∧
      s.run = .running ∧ s.out = []) ∧
    (¬ (a.memSize ≤ 2 ^ 32 ∧ a.base.toNat + a.image.length ≤ 2 ^ 32) →
      State.resetWith a = .refused .resetArguments)

/-- The model's own load of one instruction (notes/assumptions/6.md): the very next step executes it, and the registers and
the pc are as they were. -/
def Obligations.PlacedWordIsTheNextInstruction : Prop :=
  ∀ (s : State) (n : Nat) (i : Instr), s.mem.wf → decodeTableWord 32 n = some i →
    step (s.withFetchWord 32 n) = exec i (s.withFetchWord 32 n) ∧
    (s.withFetchWord 32 n).regs = s.regs ∧ (s.withFetchWord 32 n).pc = s.pc ∧ (s.withFetchWord 32 n).out = s.out
end

