-- ==== Sys2Proof/Laws/Decode.lean ====
section
/-! SUPPORT. The decoder, said once as a relation: which fields make a word which instruction. -/

namespace Sys2Proof

/-- The word `w` is the instruction: one case per row of spec/30_encoding.md rule R58. -/
inductive Reads (w : Word) : Instr → Prop
  | addi (op : opcodeField w = 0x13#7) (f3 : funct3Field w = 0#3) :
      Reads w (.addi (rdField w) (rs1Field w) (immI w))
  | slti (op : opcodeField w = 0x13#7) (f3 : funct3Field w = 2#3) :
      Reads w (.slti (rdField w) (rs1Field w) (immI w))
  | sltiu (op : opcodeField w = 0x13#7) (f3 : funct3Field w = 3#3) :
      Reads w (.sltiu (rdField w) (rs1Field w) (immI w))
  | xori (op : opcodeField w = 0x13#7) (f3 : funct3Field w = 4#3) :
      Reads w (.xori (rdField w) (rs1Field w) (immI w))
  | ori (op : opcodeField w = 0x13#7) (f3 : funct3Field w = 6#3) :
      Reads w (.ori (rdField w) (rs1Field w) (immI w))
  | andi (op : opcodeField w = 0x13#7) (f3 : funct3Field w = 7#3) :
      Reads w (.andi (rdField w) (rs1Field w) (immI w))
  | slli (op : opcodeField w = 0x13#7) (f3 : funct3Field w = 1#3) (f7 : funct7Field w = 0x00#7) :
      Reads w (.slli (rdField w) (rs1Field w) (rs2Field w))
  | srli (op : opcodeField w = 0x13#7) (f3 : funct3Field w = 5#3) (f7 : funct7Field w = 0x00#7) :
      Reads w (.srli (rdField w) (rs1Field w) (rs2Field w))
  | srai (op : opcodeField w = 0x13#7) (f3 : funct3Field w = 5#3) (f7 : funct7Field w = 0x20#7) :
      Reads w (.srai (rdField w) (rs1Field w) (rs2Field w))
  | add (op : opcodeField w = 0x33#7) (f3 : funct3Field w = 0#3) (f7 : funct7Field w = 0x00#7) :
      Reads w (.add (rdField w) (rs1Field w) (rs2Field w))
  | sub (op : opcodeField w = 0x33#7) (f3 : funct3Field w = 0#3) (f7 : funct7Field w = 0x20#7) :
      Reads w (.sub (rdField w) (rs1Field w) (rs2Field w))
  | sll (op : opcodeField w = 0x33#7) (f3 : funct3Field w = 1#3) (f7 : funct7Field w = 0x00#7) :
      Reads w (.sll (rdField w) (rs1Field w) (rs2Field w))
  | slt (op : opcodeField w = 0x33#7) (f3 : funct3Field w = 2#3) (f7 : funct7Field w = 0x00#7) :
      Reads w (.slt (rdField w) (rs1Field w) (rs2Field w))
  | sltu (op : opcodeField w = 0x33#7) (f3 : funct3Field w = 3#3) (f7 : funct7Field w = 0x00#7) :
      Reads w (.sltu (rdField w) (rs1Field w) (rs2Field w))
  | xor (op : opcodeField w = 0x33#7) (f3 : funct3Field w = 4#3) (f7 : funct7Field w = 0x00#7) :
      Reads w (.xor (rdField w) (rs1Field w) (rs2Field w))
  | srl (op : opcodeField w = 0x33#7) (f3 : funct3Field w = 5#3) (f7 : funct7Field w = 0x00#7) :
      Reads w (.srl (rdField w) (rs1Field w) (rs2Field w))
  | sra (op : opcodeField w = 0x33#7) (f3 : funct3Field w = 5#3) (f7 : funct7Field w = 0x20#7) :
      Reads w (.sra (rdField w) (rs1Field w) (rs2Field w))
  | or (op : opcodeField w = 0x33#7) (f3 : funct3Field w = 6#3) (f7 : funct7Field w = 0x00#7) :
      Reads w (.or (rdField w) (rs1Field w) (rs2Field w))
  | and (op : opcodeField w = 0x33#7) (f3 : funct3Field w = 7#3) (f7 : funct7Field w = 0x00#7) :
      Reads w (.and (rdField w) (rs1Field w) (rs2Field w))
  | lb (op : opcodeField w = 0x03#7) (f3 : funct3Field w = 0#3) :
      Reads w (.lb (rdField w) (rs1Field w) (immI w))
  | lh (op : opcodeField w = 0x03#7) (f3 : funct3Field w = 1#3) :
      Reads w (.lh (rdField w) (rs1Field w) (immI w))
  | lw (op : opcodeField w = 0x03#7) (f3 : funct3Field w = 2#3) :
      Reads w (.lw (rdField w) (rs1Field w) (immI w))
  | lbu (op : opcodeField w = 0x03#7) (f3 : funct3Field w = 4#3) :
      Reads w (.lbu (rdField w) (rs1Field w) (immI w))
  | lhu (op : opcodeField w = 0x03#7) (f3 : funct3Field w = 5#3) :
      Reads w (.lhu (rdField w) (rs1Field w) (immI w))
  | sb (op : opcodeField w = 0x23#7) (f3 : funct3Field w = 0#3) :
      Reads w (.sb (rs1Field w) (rs2Field w) (immS w))
  | sh (op : opcodeField w = 0x23#7) (f3 : funct3Field w = 1#3) :
      Reads w (.sh (rs1Field w) (rs2Field w) (immS w))
  | sw (op : opcodeField w = 0x23#7) (f3 : funct3Field w = 2#3) :
      Reads w (.sw (rs1Field w) (rs2Field w) (immS w))
  | beq (op : opcodeField w = 0x63#7) (f3 : funct3Field w = 0#3) :
      Reads w (.beq (rs1Field w) (rs2Field w) (immB w))
  | bne (op : opcodeField w = 0x63#7) (f3 : funct3Field w = 1#3) :
      Reads w (.bne (rs1Field w) (rs2Field w) (immB w))
  | blt (op : opcodeField w = 0x63#7) (f3 : funct3Field w = 4#3) :
      Reads w (.blt (rs1Field w) (rs2Field w) (immB w))
  | bge (op : opcodeField w = 0x63#7) (f3 : funct3Field w = 5#3) :
      Reads w (.bge (rs1Field w) (rs2Field w) (immB w))
  | bltu (op : opcodeField w = 0x63#7) (f3 : funct3Field w = 6#3) :
      Reads w (.bltu (rs1Field w) (rs2Field w) (immB w))
  | bgeu (op : opcodeField w = 0x63#7) (f3 : funct3Field w = 7#3) :
      Reads w (.bgeu (rs1Field w) (rs2Field w) (immB w))
  | jal (op : opcodeField w = 0x6F#7) :
      Reads w (.jal (rdField w) (immJ w))
  | jalr (op : opcodeField w = 0x67#7) :
      Reads w (.jalr (rdField w) (rs1Field w) (immI w))
  | lui (op : opcodeField w = 0x37#7) :
      Reads w (.lui (rdField w) (immU w))
  | auipc (op : opcodeField w = 0x17#7) :
      Reads w (.auipc (rdField w) (immU w))
  | ecall (op : opcodeField w = 0x73#7) (im : w.extractLsb' 20 12 = 0#12) :
      Reads w (.ecall)
  | ebreak (op : opcodeField w = 0x73#7) (im : w.extractLsb' 20 12 = 1#12) :
      Reads w (.ebreak)

/-- A field all of whose bits are fixed by a mask has the value the match gives it. -/
theorem field_of_row {w mask fixed : Word} (h : w &&& mask = fixed) (lo len : Nat)
    (hm : mask.extractLsb' lo len = BitVec.allOnes len) : w.extractLsb' lo len = fixed.extractLsb' lo len := by
  rw [← h, BitVec.extractLsb'_and, hm, BitVec.and_allOnes]

/-- Truncating a sign extension gives the value back. -/
theorem setWidth_signExtend {n m : Nat} (h : n ≤ m) (v : BitVec n) : (v.signExtend m).setWidth n = v := by
  apply BitVec.eq_of_getLsbD_eq
  intro k hk
  rw [BitVec.getLsbD_setWidth, BitVec.getLsbD_signExtend]
  simp only [hk, show k < m by omega, decide_true, Bool.true_and, if_true]

/-- The low five bits of the I-shape immediate are the rs2 field (rule R57). -/
theorem shamt_of_immI (w : Word) : (immI w).extractLsb' 0 5 = rs2Field w := by
  apply BitVec.eq_of_getLsbD_eq
  intro k hk
  simp only [immI, rs2Field, BitVec.getLsbD_signExtend, BitVec.getLsbD_extractLsb', hk, Nat.zero_add,
    show k < 32 by omega, show k < 12 by omega, decide_true, Bool.true_and, if_true]

theorem immI_eq_zero (w : Word) : immI w = 0#32 ↔ w.extractLsb' 20 12 = 0#12 := by
  constructor
  · intro h
    have := congrArg (BitVec.setWidth 12) h
    rwa [immI, setWidth_signExtend (by decide)] at this
  · intro h
    rw [immI, h]
    decide

theorem immI_eq_one (w : Word) : immI w = 1#32 ↔ w.extractLsb' 20 12 = 1#12 := by
  constructor
  · intro h
    have := congrArg (BitVec.setWidth 12) h
    rwa [immI, setWidth_signExtend (by decide)] at this
  · intro h
    rw [immI, h]
    decide

/-- What the fields say, the decoder reads. -/
theorem decodeWord_of_reads {w : Word} {i : Instr} (h : Reads w i) : decodeWord w = .ok i := by
  cases h
  all_goals simp_all [decodeWord, select, decodeFields, decodeImm, selectOpImm, selectOp, selectLoad, selectStore,
    selectBranch, selectSystem, shamt_of_immI, immI_eq_zero, immI_eq_one]

/-- What the decoder reads, the fields say. -/
theorem reads_of_decodeWord {w : Word} {i : Instr} (h : decodeWord w = .ok i) : Reads w i := by
  unfold decodeWord select at h
  split at h
  · rename_i op
    have op : opcodeField w = 0x13#7 := op
    have him : (decodeFields w).imm = immI w := by simp [decodeFields, decodeImm, op]
    unfold selectOpImm at h
    rw [him, shamt_of_immI] at h
    split at h
    · rename_i f3; cases h; exact .addi op f3
    · rename_i f3
      split at h
      · rename_i f7; cases h; exact .slli op f3 f7
      · cases h
    · rename_i f3; cases h; exact .slti op f3
    · rename_i f3; cases h; exact .sltiu op f3
    · rename_i f3; cases h; exact .xori op f3
    · rename_i f3
      split at h
      · rename_i f7; cases h; exact .srli op f3 f7
      · split at h
        · rename_i f7; cases h; exact .srai op f3 f7
        · cases h
    · rename_i f3; cases h; exact .ori op f3
    · rename_i f3; cases h; exact .andi op f3
  · rename_i op
    unfold selectOp at h
    split at h
    · rename_i f7 f3; cases h; exact .add op f3 f7
    · rename_i f7 f3; cases h; exact .sll op f3 f7
    · rename_i f7 f3; cases h; exact .slt op f3 f7
    · rename_i f7 f3; cases h; exact .sltu op f3 f7
    · rename_i f7 f3; cases h; exact .xor op f3 f7
    · rename_i f7 f3; cases h; exact .srl op f3 f7
    · rename_i f7 f3; cases h; exact .or op f3 f7
    · rename_i f7 f3; cases h; exact .and op f3 f7
    · rename_i f7 f3; cases h; exact .sub op f3 f7
    · rename_i f7 f3; cases h; exact .sra op f3 f7
    · cases h
  · rename_i op
    have op : opcodeField w = 0x03#7 := op
    have him : (decodeFields w).imm = immI w := by simp [decodeFields, decodeImm, op]
    unfold selectLoad at h
    rw [him] at h
    split at h
    · rename_i f3; cases h; exact .lb op f3
    · rename_i f3; cases h; exact .lh op f3
    · rename_i f3; cases h; exact .lw op f3
    · rename_i f3; cases h; exact .lbu op f3
    · rename_i f3; cases h; exact .lhu op f3
    · cases h
  · rename_i op
    have op : opcodeField w = 0x23#7 := op
    have him : (decodeFields w).imm = immS w := by simp [decodeFields, decodeImm, op]
    unfold selectStore at h
    rw [him] at h
    split at h
    · rename_i f3; cases h; exact .sb op f3
    · rename_i f3; cases h; exact .sh op f3
    · rename_i f3; cases h; exact .sw op f3
    · cases h
  · rename_i op
    have op : opcodeField w = 0x63#7 := op
    have him : (decodeFields w).imm = immB w := by simp [decodeFields, decodeImm, op]
    unfold selectBranch at h
    rw [him] at h
    split at h
    · rename_i f3; cases h; exact .beq op f3
    · rename_i f3; cases h; exact .bne op f3
    · rename_i f3; cases h; exact .blt op f3
    · rename_i f3; cases h; exact .bge op f3
    · rename_i f3; cases h; exact .bltu op f3
    · rename_i f3; cases h; exact .bgeu op f3
    · cases h
  · rename_i op
    have op : opcodeField w = 0x6F#7 := op
    have him : (decodeFields w).imm = immJ w := by simp [decodeFields, decodeImm, op]
    rw [him] at h
    cases h
    exact .jal op
  · rename_i op
    have op : opcodeField w = 0x67#7 := op
    have him : (decodeFields w).imm = immI w := by simp [decodeFields, decodeImm, op]
    rw [him] at h
    cases h
    exact .jalr op
  · rename_i op
    have op : opcodeField w = 0x37#7 := op
    have him : (decodeFields w).imm = immU w := by simp [decodeFields, decodeImm, op]
    rw [him] at h
    cases h
    exact .lui op
  · rename_i op
    have op : opcodeField w = 0x17#7 := op
    have him : (decodeFields w).imm = immU w := by simp [decodeFields, decodeImm, op]
    rw [him] at h
    cases h
    exact .auipc op
  · rename_i op
    have op : opcodeField w = 0x73#7 := op
    have him : (decodeFields w).imm = immI w := by simp [decodeFields, decodeImm, op]
    unfold selectSystem at h
    rw [him] at h
    split at h
    · rename_i h0; cases h; exact .ecall op ((immI_eq_zero w).1 h0)
    · split at h
      · rename_i h1; cases h; exact .ebreak op ((immI_eq_one w).1 h1)
      · cases h
  · cases h

/-- The decoder is the relation. -/
theorem decodeWord_eq_ok {w : Word} {i : Instr} : decodeWord w = .ok i ↔ Reads w i :=
  ⟨reads_of_decodeWord, decodeWord_of_reads⟩

end Sys2Proof
end

