-- ==== Sys2Proof/Laws/Encode.lean ====
section
/-! SUPPORT. What the decoder's fields read in an encoded word, shape by shape (spec/30_encoding.md rule R51). -/

namespace Sys2Proof

variable (op : BitVec 7) (f3 : BitVec 3) (f7 : BitVec 7) (rd rs1 rs2 shamt : BitVec 5) (imm : Word)

/-! ### Immediates: the sign extension of the low bits of a well-formed immediate is the immediate -/

theorem signExtend_of_wfImm12 {imm : Word} (h : wfImm12 imm = true) : (imm.setWidth 12).signExtend 32 = imm :=
  (beq_iff_eq.1 h).symm

theorem signExtend_of_wfImmB {imm : Word} (h : wfImmB imm = true) :
    (imm.setWidth 13).signExtend 32 = imm ∧ imm.getLsbD 0 = false := by
  simp only [wfImmB, fitsSigned, Bool.and_eq_true, beq_iff_eq, Bool.not_eq_true'] at h
  exact ⟨h.1.symm, h.2⟩

theorem signExtend_of_wfImmJ {imm : Word} (h : wfImmJ imm = true) :
    (imm.setWidth 21).signExtend 32 = imm ∧ imm.getLsbD 0 = false := by
  simp only [wfImmJ, fitsSigned, Bool.and_eq_true, beq_iff_eq, Bool.not_eq_true'] at h
  exact ⟨h.1.symm, h.2⟩

theorem extractLsb'_zero_of_even {imm : Word} (h : imm.getLsbD 0 = false) : 0#1 = imm.extractLsb' 0 1 := by
  apply BitVec.eq_of_getLsbD_eq
  intro k hk
  have : k = 0 := by omega
  subst this
  rw [BitVec.getLsbD_extractLsb', Nat.add_zero, h]
  rfl

/-! ### The fields of each encoder -/

theorem opcodeField_encodeI : opcodeField (encodeI op f3 rd rs1 imm) = op := by
  exact BitVec.extractLsb'_append_eq_right

theorem rdField_encodeI : rdField (encodeI op f3 rd rs1 imm) = rd := by
  refine (BitVec.extractLsb'_append_eq_of_le (by decide)).trans ?_
  exact BitVec.extractLsb'_append_eq_right

theorem funct3Field_encodeI : funct3Field (encodeI op f3 rd rs1 imm) = f3 := by
  refine (BitVec.extractLsb'_append_eq_of_le (by decide)).trans ?_
  refine (BitVec.extractLsb'_append_eq_of_le (by decide)).trans ?_
  exact BitVec.extractLsb'_append_eq_right

theorem rs1Field_encodeI : rs1Field (encodeI op f3 rd rs1 imm) = rs1 := by
  refine (BitVec.extractLsb'_append_eq_of_le (by decide)).trans ?_
  refine (BitVec.extractLsb'_append_eq_of_le (by decide)).trans ?_
  refine (BitVec.extractLsb'_append_eq_of_le (by decide)).trans ?_
  exact BitVec.extractLsb'_append_eq_right

theorem opcodeField_encodeShift : opcodeField (encodeShift f7 f3 rd rs1 shamt) = 0x13#7 := by
  exact BitVec.extractLsb'_append_eq_right

theorem rdField_encodeShift : rdField (encodeShift f7 f3 rd rs1 shamt) = rd := by
  refine (BitVec.extractLsb'_append_eq_of_le (by decide)).trans ?_
  exact BitVec.extractLsb'_append_eq_right

theorem funct3Field_encodeShift : funct3Field (encodeShift f7 f3 rd rs1 shamt) = f3 := by
  refine (BitVec.extractLsb'_append_eq_of_le (by decide)).trans ?_
  refine (BitVec.extractLsb'_append_eq_of_le (by decide)).trans ?_
  exact BitVec.extractLsb'_append_eq_right

theorem rs1Field_encodeShift : rs1Field (encodeShift f7 f3 rd rs1 shamt) = rs1 := by
  refine (BitVec.extractLsb'_append_eq_of_le (by decide)).trans ?_
  refine (BitVec.extractLsb'_append_eq_of_le (by decide)).trans ?_
  refine (BitVec.extractLsb'_append_eq_of_le (by decide)).trans ?_
  exact BitVec.extractLsb'_append_eq_right

theorem rs2Field_encodeShift : rs2Field (encodeShift f7 f3 rd rs1 shamt) = shamt := by
  refine (BitVec.extractLsb'_append_eq_of_le (by decide)).trans ?_
  refine (BitVec.extractLsb'_append_eq_of_le (by decide)).trans ?_
  refine (BitVec.extractLsb'_append_eq_of_le (by decide)).trans ?_
  refine (BitVec.extractLsb'_append_eq_of_le (by decide)).trans ?_
  exact BitVec.extractLsb'_append_eq_right

theorem funct7Field_encodeShift : funct7Field (encodeShift f7 f3 rd rs1 shamt) = f7 := by
  refine (BitVec.extractLsb'_append_eq_of_le (by decide)).trans ?_
  refine (BitVec.extractLsb'_append_eq_of_le (by decide)).trans ?_
  refine (BitVec.extractLsb'_append_eq_of_le (by decide)).trans ?_
  refine (BitVec.extractLsb'_append_eq_of_le (by decide)).trans ?_
  refine (BitVec.extractLsb'_append_eq_of_le (by decide)).trans ?_
  exact BitVec.extractLsb'_eq_self

theorem opcodeField_encodeR : opcodeField (encodeR f7 f3 rd rs1 rs2) = 0x33#7 := by
  exact BitVec.extractLsb'_append_eq_right

theorem rdField_encodeR : rdField (encodeR f7 f3 rd rs1 rs2) = rd := by
  refine (BitVec.extractLsb'_append_eq_of_le (by decide)).trans ?_
  exact BitVec.extractLsb'_append_eq_right

theorem funct3Field_encodeR : funct3Field (encodeR f7 f3 rd rs1 rs2) = f3 := by
  refine (BitVec.extractLsb'_append_eq_of_le (by decide)).trans ?_
  refine (BitVec.extractLsb'_append_eq_of_le (by decide)).trans ?_
  exact BitVec.extractLsb'_append_eq_right

theorem rs1Field_encodeR : rs1Field (encodeR f7 f3 rd rs1 rs2) = rs1 := by
  refine (BitVec.extractLsb'_append_eq_of_le (by decide)).trans ?_
  refine (BitVec.extractLsb'_append_eq_of_le (by decide)).trans ?_
  refine (BitVec.extractLsb'_append_eq_of_le (by decide)).trans ?_
  exact BitVec.extractLsb'_append_eq_right

theorem rs2Field_encodeR : rs2Field (encodeR f7 f3 rd rs1 rs2) = rs2 := by
  refine (BitVec.extractLsb'_append_eq_of_le (by decide)).trans ?_
  refine (BitVec.extractLsb'_append_eq_of_le (by decide)).trans ?_
  refine (BitVec.extractLsb'_append_eq_of_le (by decide)).trans ?_
  refine (BitVec.extractLsb'_append_eq_of_le (by decide)).trans ?_
  exact BitVec.extractLsb'_append_eq_right

theorem funct7Field_encodeR : funct7Field (encodeR f7 f3 rd rs1 rs2) = f7 := by
  refine (BitVec.extractLsb'_append_eq_of_le (by decide)).trans ?_
  refine (BitVec.extractLsb'_append_eq_of_le (by decide)).trans ?_
  refine (BitVec.extractLsb'_append_eq_of_le (by decide)).trans ?_
  refine (BitVec.extractLsb'_append_eq_of_le (by decide)).trans ?_
  refine (BitVec.extractLsb'_append_eq_of_le (by decide)).trans ?_
  exact BitVec.extractLsb'_eq_self

theorem opcodeField_encodeS : opcodeField (encodeS f3 rs1 rs2 imm) = 0x23#7 := by
  exact BitVec.extractLsb'_append_eq_right

theorem funct3Field_encodeS : funct3Field (encodeS f3 rs1 rs2 imm) = f3 := by
  refine (BitVec.extractLsb'_append_eq_of_le (by decide)).trans ?_
  refine (BitVec.extractLsb'_append_eq_of_le (by decide)).trans ?_
  exact BitVec.extractLsb'_append_eq_right

theorem rs1Field_encodeS : rs1Field (encodeS f3 rs1 rs2 imm) = rs1 := by
  refine (BitVec.extractLsb'_append_eq_of_le (by decide)).trans ?_
  refine (BitVec.extractLsb'_append_eq_of_le (by decide)).trans ?_
  refine (BitVec.extractLsb'_append_eq_of_le (by decide)).trans ?_
  exact BitVec.extractLsb'_append_eq_right

theorem rs2Field_encodeS : rs2Field (encodeS f3 rs1 rs2 imm) = rs2 := by
  refine (BitVec.extractLsb'_append_eq_of_le (by decide)).trans ?_
  refine (BitVec.extractLsb'_append_eq_of_le (by decide)).trans ?_
  refine (BitVec.extractLsb'_append_eq_of_le (by decide)).trans ?_
  refine (BitVec.extractLsb'_append_eq_of_le (by decide)).trans ?_
  exact BitVec.extractLsb'_append_eq_right

theorem opcodeField_encodeB : opcodeField (encodeB f3 rs1 rs2 imm) = 0x63#7 := by
  exact BitVec.extractLsb'_append_eq_right

theorem funct3Field_encodeB : funct3Field (encodeB f3 rs1 rs2 imm) = f3 := by
  refine (BitVec.extractLsb'_append_eq_of_le (by decide)).trans ?_
  refine (BitVec.extractLsb'_append_eq_of_le (by decide)).trans ?_
  refine (BitVec.extractLsb'_append_eq_of_le (by decide)).trans ?_
  exact BitVec.extractLsb'_append_eq_right

theorem rs1Field_encodeB : rs1Field (encodeB f3 rs1 rs2 imm) = rs1 := by
  refine (BitVec.extractLsb'_append_eq_of_le (by decide)).trans ?_
  refine (BitVec.extractLsb'_append_eq_of_le (by decide)).trans ?_
  refine (BitVec.extractLsb'_append_eq_of_le (by decide)).trans ?_
  refine (BitVec.extractLsb'_append_eq_of_le (by decide)).trans ?_
  exact BitVec.extractLsb'_append_eq_right

theorem rs2Field_encodeB : rs2Field (encodeB f3 rs1 rs2 imm) = rs2 := by
  refine (BitVec.extractLsb'_append_eq_of_le (by decide)).trans ?_
  refine (BitVec.extractLsb'_append_eq_of_le (by decide)).trans ?_
  refine (BitVec.extractLsb'_append_eq_of_le (by decide)).trans ?_
  refine (BitVec.extractLsb'_append_eq_of_le (by decide)).trans ?_
  refine (BitVec.extractLsb'_append_eq_of_le (by decide)).trans ?_
  exact BitVec.extractLsb'_append_eq_right

theorem opcodeField_encodeU : opcodeField (encodeU op rd imm) = op := by
  exact BitVec.extractLsb'_append_eq_right

theorem rdField_encodeU : rdField (encodeU op rd imm) = rd := by
  refine (BitVec.extractLsb'_append_eq_of_le (by decide)).trans ?_
  exact BitVec.extractLsb'_append_eq_right

theorem opcodeField_encodeJ : opcodeField (encodeJ rd imm) = 0x6F#7 := by
  exact BitVec.extractLsb'_append_eq_right

theorem rdField_encodeJ : rdField (encodeJ rd imm) = rd := by
  refine (BitVec.extractLsb'_append_eq_of_le (by decide)).trans ?_
  exact BitVec.extractLsb'_append_eq_right

/-! ### The immediate of each encoder -/

theorem encodeI_bits20 : (encodeI op f3 rd rs1 imm).extractLsb' 20 12 = imm.extractLsb' 0 12 := by
  refine (BitVec.extractLsb'_append_eq_of_le (by decide)).trans ?_
  refine (BitVec.extractLsb'_append_eq_of_le (by decide)).trans ?_
  refine (BitVec.extractLsb'_append_eq_of_le (by decide)).trans ?_
  refine (BitVec.extractLsb'_append_eq_of_le (by decide)).trans ?_
  exact BitVec.extractLsb'_eq_self

theorem encodeS_bits7 : (encodeS f3 rs1 rs2 imm).extractLsb' 7 5 = imm.extractLsb' 0 5 := by
  refine (BitVec.extractLsb'_append_eq_of_le (by decide)).trans ?_
  exact BitVec.extractLsb'_append_eq_right

theorem encodeS_bits25 : (encodeS f3 rs1 rs2 imm).extractLsb' 25 7 = imm.extractLsb' 5 7 := by
  refine (BitVec.extractLsb'_append_eq_of_le (by decide)).trans ?_
  refine (BitVec.extractLsb'_append_eq_of_le (by decide)).trans ?_
  refine (BitVec.extractLsb'_append_eq_of_le (by decide)).trans ?_
  refine (BitVec.extractLsb'_append_eq_of_le (by decide)).trans ?_
  refine (BitVec.extractLsb'_append_eq_of_le (by decide)).trans ?_
  exact BitVec.extractLsb'_eq_self

theorem encodeB_bits7 : (encodeB f3 rs1 rs2 imm).extractLsb' 7 1 = imm.extractLsb' 11 1 := by
  refine (BitVec.extractLsb'_append_eq_of_le (by decide)).trans ?_
  exact BitVec.extractLsb'_append_eq_right

theorem encodeB_bits8 : (encodeB f3 rs1 rs2 imm).extractLsb' 8 4 = imm.extractLsb' 1 4 := by
  refine (BitVec.extractLsb'_append_eq_of_le (by decide)).trans ?_
  refine (BitVec.extractLsb'_append_eq_of_le (by decide)).trans ?_
  exact BitVec.extractLsb'_append_eq_right

theorem encodeB_bits25 : (encodeB f3 rs1 rs2 imm).extractLsb' 25 6 = imm.extractLsb' 5 6 := by
  refine (BitVec.extractLsb'_append_eq_of_le (by decide)).trans ?_
  refine (BitVec.extractLsb'_append_eq_of_le (by decide)).trans ?_
  refine (BitVec.extractLsb'_append_eq_of_le (by decide)).trans ?_
  refine (BitVec.extractLsb'_append_eq_of_le (by decide)).trans ?_
  refine (BitVec.extractLsb'_append_eq_of_le (by decide)).trans ?_
  refine (BitVec.extractLsb'_append_eq_of_le (by decide)).trans ?_
  exact BitVec.extractLsb'_append_eq_right

theorem encodeB_bits31 : (encodeB f3 rs1 rs2 imm).extractLsb' 31 1 = imm.extractLsb' 12 1 := by
  refine (BitVec.extractLsb'_append_eq_of_le (by decide)).trans ?_
  refine (BitVec.extractLsb'_append_eq_of_le (by decide)).trans ?_
  refine (BitVec.extractLsb'_append_eq_of_le (by decide)).trans ?_
  refine (BitVec.extractLsb'_append_eq_of_le (by decide)).trans ?_
  refine (BitVec.extractLsb'_append_eq_of_le (by decide)).trans ?_
  refine (BitVec.extractLsb'_append_eq_of_le (by decide)).trans ?_
  refine (BitVec.extractLsb'_append_eq_of_le (by decide)).trans ?_
  exact BitVec.extractLsb'_eq_self

theorem encodeU_bits12 : (encodeU op rd imm).extractLsb' 12 20 = imm.extractLsb' 12 20 := by
  refine (BitVec.extractLsb'_append_eq_of_le (by decide)).trans ?_
  refine (BitVec.extractLsb'_append_eq_of_le (by decide)).trans ?_
  exact BitVec.extractLsb'_eq_self

theorem encodeJ_bits12 : (encodeJ rd imm).extractLsb' 12 8 = imm.extractLsb' 12 8 := by
  refine (BitVec.extractLsb'_append_eq_of_le (by decide)).trans ?_
  refine (BitVec.extractLsb'_append_eq_of_le (by decide)).trans ?_
  exact BitVec.extractLsb'_append_eq_right

theorem encodeJ_bits20 : (encodeJ rd imm).extractLsb' 20 1 = imm.extractLsb' 11 1 := by
  refine (BitVec.extractLsb'_append_eq_of_le (by decide)).trans ?_
  refine (BitVec.extractLsb'_append_eq_of_le (by decide)).trans ?_
  refine (BitVec.extractLsb'_append_eq_of_le (by decide)).trans ?_
  exact BitVec.extractLsb'_append_eq_right

theorem encodeJ_bits21 : (encodeJ rd imm).extractLsb' 21 10 = imm.extractLsb' 1 10 := by
  refine (BitVec.extractLsb'_append_eq_of_le (by decide)).trans ?_
  refine (BitVec.extractLsb'_append_eq_of_le (by decide)).trans ?_
  refine (BitVec.extractLsb'_append_eq_of_le (by decide)).trans ?_
  refine (BitVec.extractLsb'_append_eq_of_le (by decide)).trans ?_
  exact BitVec.extractLsb'_append_eq_right

theorem encodeJ_bits31 : (encodeJ rd imm).extractLsb' 31 1 = imm.extractLsb' 20 1 := by
  refine (BitVec.extractLsb'_append_eq_of_le (by decide)).trans ?_
  refine (BitVec.extractLsb'_append_eq_of_le (by decide)).trans ?_
  refine (BitVec.extractLsb'_append_eq_of_le (by decide)).trans ?_
  refine (BitVec.extractLsb'_append_eq_of_le (by decide)).trans ?_
  refine (BitVec.extractLsb'_append_eq_of_le (by decide)).trans ?_
  exact BitVec.extractLsb'_eq_self

theorem extractLsb'_zero_eq_setWidth (n : Nat) : imm.extractLsb' 0 n = imm.setWidth n := by
  apply BitVec.eq_of_getLsbD_eq
  intro k hk
  rw [BitVec.getLsbD_extractLsb', BitVec.getLsbD_setWidth, Nat.zero_add]

theorem immI_encodeI {imm : Word} (h : wfImm12 imm = true) : immI (encodeI op f3 rd rs1 imm) = imm := by
  rw [immI, encodeI_bits20, extractLsb'_zero_eq_setWidth, signExtend_of_wfImm12 h]

theorem immS_encodeS {imm : Word} (h : wfImm12 imm = true) : immS (encodeS f3 rs1 rs2 imm) = imm := by
  rw [immS, encodeS_bits7, encodeS_bits25, BitVec.extractLsb'_append_extractLsb'_eq_extractLsb' (by decide),
    extractLsb'_zero_eq_setWidth, signExtend_of_wfImm12 h]

theorem immB_encodeB {imm : Word} (h : wfImmB imm = true) : immB (encodeB f3 rs1 rs2 imm) = imm := by
  obtain ⟨hs, h0⟩ := signExtend_of_wfImmB h
  rw [immB, encodeB_bits7, encodeB_bits8, encodeB_bits25, encodeB_bits31, extractLsb'_zero_of_even h0,
    BitVec.extractLsb'_append_extractLsb'_eq_extractLsb' (by decide),
    BitVec.extractLsb'_append_extractLsb'_eq_extractLsb' (by decide),
    BitVec.extractLsb'_append_extractLsb'_eq_extractLsb' (by decide),
    BitVec.extractLsb'_append_extractLsb'_eq_extractLsb' (by decide),
    extractLsb'_zero_eq_setWidth, hs]

theorem immJ_encodeJ {imm : Word} (h : wfImmJ imm = true) : immJ (encodeJ rd imm) = imm := by
  obtain ⟨hs, h0⟩ := signExtend_of_wfImmJ h
  rw [immJ, encodeJ_bits12, encodeJ_bits20, encodeJ_bits21, encodeJ_bits31, extractLsb'_zero_of_even h0,
    BitVec.extractLsb'_append_extractLsb'_eq_extractLsb' (by decide),
    BitVec.extractLsb'_append_extractLsb'_eq_extractLsb' (by decide),
    BitVec.extractLsb'_append_extractLsb'_eq_extractLsb' (by decide),
    BitVec.extractLsb'_append_extractLsb'_eq_extractLsb' (by decide),
    extractLsb'_zero_eq_setWidth, hs]

theorem immU_encodeU {imm : Word} (h : wfImmU imm = true) : immU (encodeU op rd imm) = imm := by
  have h0 : 0#12 = imm.extractLsb' 0 12 := by
    rw [extractLsb'_zero_eq_setWidth]
    exact (beq_iff_eq.1 h).symm
  rw [immU, encodeU_bits12, h0, BitVec.extractLsb'_append_extractLsb'_eq_extractLsb' (by decide)]
  exact BitVec.extractLsb'_eq_self

/-- The word of four bytes of a word is the word. -/
theorem wordOfBytes_bytesOfWord (w : Word) :
    wordOfBytes (w.extractLsb' 0 8) (w.extractLsb' 8 8) (w.extractLsb' 16 8) (w.extractLsb' 24 8) = w := by
  rw [wordOfBytes, BitVec.extractLsb'_append_extractLsb'_eq_extractLsb' (by decide),
    BitVec.extractLsb'_append_extractLsb'_eq_extractLsb' (by decide),
    BitVec.extractLsb'_append_extractLsb'_eq_extractLsb' (by decide)]
  exact BitVec.extractLsb'_eq_self

end Sys2Proof
end

