-- ==== Sys2Proof/Laws/Memory.lean ====
section
/-! SUPPORT. The laws of memory: reading what was written, leaving every other byte alone, and keeping the canonical
form. -/

namespace Sys2Proof.Machine

/-! ### One byte -/

/-- An address no entry names reads as the unlisted byte. -/
theorem byte_of_not_listed {m : Memory} {a : Nat} (h : ∀ c ∈ m, c.1 ≠ a) : m.byte a = Config.unlistedByte := by
  induction m with
  | nil => rfl
  | cons c rest ih =>
    obtain ⟨k, b⟩ := c
    have hk : k ≠ a := h (k, b) (by simp)
    simp only [Memory.byte]
    rw [if_neg (Ne.symm hk)]
    exact ih (fun c hc => h c (by simp [hc]))

theorem wf_cons {k : Nat} {b : Byte} {rest : Memory} :
    Memory.wf ((k, b) :: rest) ↔
      (∀ c ∈ rest, k < c.1) ∧ b ≠ Config.unlistedByte ∧ Memory.wf rest := by
  constructor
  · rintro ⟨hp, hb⟩
    rw [List.pairwise_cons] at hp
    exact ⟨fun c hc => hp.1 c hc, hb (k, b) (by simp), hp.2, fun c hc => hb c (by simp [hc])⟩
  · rintro ⟨hlt, hb, hp, hrest⟩
    refine ⟨List.pairwise_cons.2 ⟨fun c hc => hlt c hc, hp⟩, ?_⟩
    intro c hc
    rcases List.mem_cons.1 hc with rfl | hc
    · exact hb
    · exact hrest c hc

/-- The entries after a write are old ones, or the written one. -/
theorem mem_setByte {m : Memory} {a : Nat} {v : Byte} {c : Host.Cell} (h : c ∈ m.setByte a v) :
    c ∈ m ∨ (c = (a, v) ∧ v ≠ Config.unlistedByte) := by
  induction m with
  | nil =>
    simp only [Memory.setByte] at h
    split at h
    · simp at h
    · rename_i hv
      right
      exact ⟨by simpa using h, hv⟩
  | cons d rest ih =>
    obtain ⟨k, b⟩ := d
    simp only [Memory.setByte] at h
    split at h
    · split at h
      · exact .inl h
      · rename_i hv
        rcases List.mem_cons.1 h with h | h
        · exact .inr ⟨h, hv⟩
        · exact .inl h
    · split at h
      · split at h
        · exact .inl (List.mem_cons_of_mem _ h)
        · rename_i hv
          rcases List.mem_cons.1 h with h | h
          · exact .inr ⟨h, hv⟩
          · exact .inl (List.mem_cons_of_mem _ h)
      · rcases List.mem_cons.1 h with h | h
        · exact .inl (h ▸ List.mem_cons_self)
        · rcases ih h with h | h
          · exact .inl (List.mem_cons_of_mem _ h)
          · exact .inr h

/-- A write keeps the canonical form. -/
theorem wf_setByte {m : Memory} (h : m.wf) (a : Nat) (v : Byte) : (m.setByte a v).wf := by
  induction m with
  | nil =>
    simp only [Memory.setByte]
    split
    · exact h
    · rename_i hv
      exact wf_cons.2 ⟨by simp, hv, h⟩
  | cons d rest ih =>
    obtain ⟨k, b⟩ := d
    have hc := wf_cons.1 h
    simp only [Memory.setByte]
    split
    · rename_i hak
      split
      · exact h
      · rename_i hv
        refine wf_cons.2 ⟨?_, hv, h⟩
        intro c hc'
        rcases List.mem_cons.1 hc' with rfl | hc'
        · exact hak
        · exact lt_trans hak (hc.1 c hc')
    · rename_i hak
      split
      · rename_i hk
        split
        · exact hc.2.2
        · rename_i hv
          exact wf_cons.2 ⟨by rw [hk]; exact hc.1, hv, hc.2.2⟩
      · rename_i hk
        refine wf_cons.2 ⟨?_, hc.2.1, ih hc.2.2⟩
        intro c hc'
        rcases mem_setByte hc' with hc' | ⟨rfl, -⟩
        · exact hc.1 c hc'
        · show k < a
          omega

/-- Reading after a write: the written byte at its address, the old one elsewhere (rule R33). -/
theorem byte_setByte {m : Memory} (h : m.wf) (a x : Nat) (v : Byte) :
    (m.setByte a v).byte x = if x = a then v else m.byte x := by
  induction m with
  | nil =>
    simp only [Memory.setByte]
    split <;> rename_i hv <;> simp [Memory.byte, hv]
  | cons d rest ih =>
    obtain ⟨k, b⟩ := d
    have hc := wf_cons.1 h
    simp only [Memory.setByte]
    split
    · rename_i hak
      split
      · rename_i hv
        by_cases hx : x = a
        · rw [if_pos hx, hx, hv]
          apply byte_of_not_listed
          intro c hc'
          rcases List.mem_cons.1 hc' with rfl | hc'
          · show k ≠ a
            omega
          · have := hc.1 c hc'
            omega
        · rw [if_neg hx]
      · rfl
    · rename_i hak
      split
      · rename_i hk
        subst hk
        split
        · rename_i hv
          by_cases hx : x = a
          · rw [if_pos hx, hx, hv]
            apply byte_of_not_listed
            intro c hc'
            have := hc.1 c hc'
            omega
          · simp [Memory.byte, hx]
        · by_cases hx : x = a <;> simp [Memory.byte, hx]
      · rename_i hk
        simp only [Memory.byte]
        rw [ih hc.2.2]
        by_cases hx : x = k
        · have : x ≠ a := by omega
          rw [if_pos hx, if_neg this, if_pos hx]
        · rw [if_neg hx, if_neg hx]

/-! ### Several bytes -/

/-- A read depends on the bytes it covers and on nothing else. -/
theorem readLE_congr {m m' : Memory} {a n : Nat} (h : ∀ x, a ≤ x → x < a + n → m.byte x = m'.byte x) :
    m.readLE a n = m'.readLE a n := by
  induction n generalizing a with
  | zero => rfl
  | succ n ih =>
    simp only [Memory.readLE]
    rw [h a (le_refl a) (by omega), ih (fun x h1 h2 => h x (by omega) (by omega))]

/-- A read of `n` bytes is below `256 ^ n`. -/
theorem readLE_lt (m : Memory) (a n : Nat) : m.readLE a n < 256 ^ n := by
  induction n generalizing a with
  | zero => simp [Memory.readLE]
  | succ n ih =>
    have h1 := ih (a + 1)
    have h2 := (m.byte a).isLt
    simp only [Memory.readLE, pow_succ]
    omega

theorem wf_writeLE {m : Memory} (h : m.wf) (a n : Nat) (v : Word) : (m.writeLE a n v).wf := by
  induction n generalizing m a v with
  | zero => exact h
  | succ n ih => exact ih (wf_setByte h a _) _ _

/-- The entries after a store are old ones, or name a stored byte. -/
theorem mem_writeLE {m : Memory} {a n : Nat} {v : Word} {c : Host.Cell} (h : c ∈ m.writeLE a n v) :
    c ∈ m ∨ (a ≤ c.1 ∧ c.1 < a + n) := by
  induction n generalizing m a v with
  | zero => exact .inl h
  | succ n ih =>
    rcases ih h with h | h
    · rcases mem_setByte h with h | ⟨rfl, -⟩
      · exact .inl h
      · exact .inr ⟨le_refl a, by omega⟩
    · exact .inr ⟨by omega, by omega⟩

/-- A byte after a store: its part of the word inside, the old byte outside (rule R33). -/
theorem byte_writeLE {m : Memory} (h : m.wf) (a n : Nat) (v : Word) (x : Nat) :
    (m.writeLE a n v).byte x =
      if a ≤ x ∧ x < a + n then (v >>> (8 * (x - a))).setWidth 8 else m.byte x := by
  induction n generalizing m a v with
  | zero => rw [if_neg (by omega)]; rfl
  | succ n ih =>
    simp only [Memory.writeLE]
    rw [ih (wf_setByte h a _), byte_setByte h]
    by_cases h1 : x = a
    · subst h1
      simp
    · by_cases h2 : a + 1 ≤ x ∧ x < a + 1 + n
      · rw [if_pos h2, if_pos (by omega), ← BitVec.shiftRight_add]
        congr 2
        omega
      · rw [if_neg h2, if_neg h1, if_neg (by omega)]

theorem byte_writeLE_outside {m : Memory} (h : m.wf) {a n x : Nat} (v : Word) (hx : x < a ∨ a + n ≤ x) :
    (m.writeLE a n v).byte x = m.byte x := by
  rw [byte_writeLE h, if_neg (by omega)]

theorem byte_writeLE_inside {m : Memory} (h : m.wf) {a n i : Nat} (v : Word) (hi : i < n) :
    (m.writeLE a n v).byte (a + i) = (v >>> (8 * i)).setWidth 8 := by
  rw [byte_writeLE h, if_pos (by omega), Nat.add_sub_cancel_left]

/-- A stored byte as a number. -/
theorem toNat_byte_part (v : Word) (i : Nat) :
    ((v >>> (8 * i)).setWidth 8 : Byte).toNat = v.toNat / 2 ^ (8 * i) % 256 := by
  simp [BitVec.toNat_setWidth, BitVec.toNat_ushiftRight, Nat.shiftRight_eq_div_pow]

end Sys2Proof.Machine
end

