-- ==== Sys2Proof/Laws/State.lean ====
section
/-! SUPPORT. One lemma per field per update of State (each by unfolding the update once), so that no later proof unfolds
a record update. -/

namespace Sys2Proof.Machine

variable (s : State) (i j : RegIdx) (v n : Word) (c : Condition) (info : FatalInfo) (b : Byte)

/-! ### setReg -/

@[simp] theorem setReg_pc : (s.setReg i v).pc = s.pc := rfl
@[simp] theorem setReg_mem : (s.setReg i v).mem = s.mem := rfl
@[simp] theorem setReg_memLen : (s.setReg i v).memLen = s.memLen := rfl
@[simp] theorem setReg_run : (s.setReg i v).run = s.run := rfl
@[simp] theorem setReg_out : (s.setReg i v).out = s.out := rfl

theorem reg_setReg : (s.setReg i v).reg j = if i = j then v else s.reg j := by
  simp only [State.reg, State.setReg, Vector.getElem_set, BitVec.toNat_inj]

@[simp] theorem reg_setReg_self : (s.setReg i v).reg i = v := by simp [reg_setReg]

theorem reg_setReg_ne (h : i ≠ j) : (s.setReg i v).reg j = s.reg j := by simp [reg_setReg, h]

/-! ### complete -/

@[simp] theorem complete_pc : (s.complete n).pc = n := rfl
@[simp] theorem complete_mem : (s.complete n).mem = s.mem := rfl
@[simp] theorem complete_memLen : (s.complete n).memLen = s.memLen := rfl
@[simp] theorem complete_run : (s.complete n).run = s.run := rfl
@[simp] theorem complete_out : (s.complete n).out = s.out := rfl

/-- A completed step leaves x0 at zero and every other register as it was (rule R84). -/
theorem reg_complete : (s.complete n).reg j = if j = 0#5 then 0#32 else s.reg j := by
  have h : (s.complete n).reg j = (s.setReg 0#5 0#32).reg j := rfl
  rw [h, reg_setReg]
  by_cases hj : j = 0#5
  · simp [hj]
  · rw [if_neg (Ne.symm hj), if_neg hj]

@[simp] theorem reg_complete_zero : (s.complete n).reg 0#5 = 0#32 := by simp [reg_complete]

theorem reg_complete_ne (h : j ≠ 0#5) : (s.complete n).reg j = s.reg j := by simp [reg_complete, h]

/-! ### raise, exit, emit -/

@[simp] theorem raise_regs : (s.raise c info).regs = s.regs := rfl
@[simp] theorem raise_pc : (s.raise c info).pc = s.pc := rfl
@[simp] theorem raise_mem : (s.raise c info).mem = s.mem := rfl
@[simp] theorem raise_memLen : (s.raise c info).memLen = s.memLen := rfl
@[simp] theorem raise_run : (s.raise c info).run = .fatal c info := rfl
@[simp] theorem raise_out : (s.raise c info).out = s.out := rfl
@[simp] theorem reg_raise : (s.raise c info).reg j = s.reg j := rfl

@[simp] theorem exit_regs : (s.exit v).regs = s.regs := rfl
@[simp] theorem exit_pc : (s.exit v).pc = s.pc := rfl
@[simp] theorem exit_mem : (s.exit v).mem = s.mem := rfl
@[simp] theorem exit_memLen : (s.exit v).memLen = s.memLen := rfl
@[simp] theorem exit_run : (s.exit v).run = .exited v := rfl
@[simp] theorem exit_out : (s.exit v).out = s.out := rfl
@[simp] theorem reg_exit : (s.exit v).reg j = s.reg j := rfl

@[simp] theorem emit_regs : (s.emit b).regs = s.regs := rfl
@[simp] theorem emit_pc : (s.emit b).pc = s.pc := rfl
@[simp] theorem emit_mem : (s.emit b).mem = s.mem := rfl
@[simp] theorem emit_memLen : (s.emit b).memLen = s.memLen := rfl
@[simp] theorem emit_run : (s.emit b).run = s.run := rfl
@[simp] theorem emit_out : (s.emit b).out = s.out ++ [b] := rfl
@[simp] theorem reg_emit : (s.emit b).reg j = s.reg j := rfl

/-! ### placeWord -/

@[simp] theorem placeWord_regs : (s.placeWord v).regs = s.regs := rfl
@[simp] theorem placeWord_pc : (s.placeWord v).pc = s.pc := rfl
@[simp] theorem placeWord_mem : (s.placeWord v).mem = s.mem.writeLE s.pc.toNat 4 v := rfl
@[simp] theorem placeWord_memLen : (s.placeWord v).memLen = max s.memLen (s.pc.toNat + 4) := rfl
@[simp] theorem placeWord_run : (s.placeWord v).run = .running := rfl
@[simp] theorem placeWord_out : (s.placeWord v).out = s.out := rfl

/-! ### Replacing memory -/

@[simp] theorem withMem_reg (m : Memory) : ({ s with mem := m } : State).reg j = s.reg j := rfl
@[simp] theorem withMem_pc (m : Memory) : ({ s with mem := m } : State).pc = s.pc := rfl
@[simp] theorem withMem_memLen (m : Memory) : ({ s with mem := m } : State).memLen = s.memLen := rfl
@[simp] theorem withMem_run (m : Memory) : ({ s with mem := m } : State).run = s.run := rfl
@[simp] theorem withMem_out (m : Memory) : ({ s with mem := m } : State).out = s.out := rfl

/-! ### The pc sums -/

@[simp] theorem setReg_pcPlus4 : (s.setReg i v).pcPlus4 = s.pcPlus4 := rfl
@[simp] theorem withMem_pcPlus4 (m : Memory) : ({ s with mem := m } : State).pcPlus4 = s.pcPlus4 := rfl

/-- Two states with the same registers read the same in every register. -/
theorem regs_ext {s t : State} (h : ∀ r : RegIdx, t.reg r = s.reg r) : t.regs = s.regs := by
  apply Vector.ext
  intro k hk
  have := h (BitVec.ofNat 5 k)
  simpa [State.reg, Nat.mod_eq_of_lt hk] using this

end Sys2Proof.Machine
end

