-- ==== Sys2Proof/Laws/Ops.lean ====
section
/-! SUPPORT. What each shared operation can do, once each; the provers cite these and do not unfold the operations. -/

namespace Sys2Proof.Machine

variable {s t : State}

/-! ### The checked accesses -/

/-- A read answers exactly when it is in bounds (rule R32). -/
theorem memRead_inBounds {a : Nat} {w : Width} (h : a + w.bytes ≤ s.memLen) :
    s.memRead a w = some (BitVec.ofNat 32 (s.mem.readLE a w.bytes)) := if_pos h

theorem memRead_outOfBounds {a : Nat} {w : Width} (h : s.memLen < a + w.bytes) : s.memRead a w = none :=
  if_neg (by show ¬ a + w.bytes ≤ s.memLen; omega)

theorem memRead_eq_some {a : Nat} {w : Width} {v : Word} :
    s.memRead a w = some v ↔ a + w.bytes ≤ s.memLen ∧ v = BitVec.ofNat 32 (s.mem.readLE a w.bytes) := by
  by_cases h : a + w.bytes ≤ s.memLen
  · rw [memRead_inBounds h]
    exact ⟨fun e => ⟨h, (Option.some.inj e).symm⟩, fun e => by rw [e.2]⟩
  · rw [memRead_outOfBounds (by omega)]
    exact ⟨fun e => absurd e (by simp), fun e => absurd e.1 h⟩

theorem memWrite_inBounds {a : Nat} {w : Width} (v : Word) (h : a + w.bytes ≤ s.memLen) :
    s.memWrite a w v = some { s with mem := s.mem.writeLE a w.bytes v } := if_pos h

theorem memWrite_outOfBounds {a : Nat} {w : Width} (v : Word) (h : s.memLen < a + w.bytes) :
    s.memWrite a w v = none :=
  if_neg (by show ¬ a + w.bytes ≤ s.memLen; omega)

/-- A read as a number: the little-endian sum of its bytes (rule R32). -/
theorem toNat_memRead {a : Nat} {w : Width} {v : Word} (h : s.memRead a w = some v) :
    v.toNat = s.mem.readLE a w.bytes := by
  obtain ⟨-, rfl⟩ := memRead_eq_some.1 h
  rw [BitVec.toNat_ofNat, Nat.mod_eq_of_lt]
  refine lt_of_lt_of_le (readLE_lt s.mem a w.bytes) ?_
  cases w <;> decide

/-- The little-endian value as a sum over its bytes (rule R32). -/
theorem readLE_eq_sum (m : Memory) (a n : Nat) :
    m.readLE a n = ((List.range n).map (fun k => (m.byte (a + k)).toNat * 2 ^ (8 * k))).sum := by
  induction n generalizing a with
  | zero => rfl
  | succ n ih =>
    rw [Memory.readLE, ih, List.range_succ_eq_map, List.map_cons, List.sum_cons, List.map_map]
    simp only [Nat.add_zero, Nat.mul_zero, Nat.pow_zero, Nat.mul_one, Nat.add_left_cancel_iff]
    rw [← List.sum_map_mul_left]
    congr 1
    apply List.map_congr_left
    intro k _
    show _ = (m.byte (a + (k + 1))).toNat * 2 ^ (8 * (k + 1))
    rw [show a + 1 + k = a + (k + 1) by omega, show 8 * (k + 1) = 8 * k + 8 by omega, Nat.pow_add]
    ring

theorem readLE_one (m : Memory) (a : Nat) : m.readLE a 1 = (m.byte a).toNat := by
  simp [Memory.readLE]

theorem readLE_two (m : Memory) (a : Nat) :
    m.readLE a 2 = (m.byte a).toNat + 256 * (m.byte (a + 1)).toNat := by
  simp [Memory.readLE]

theorem readLE_four (m : Memory) (a : Nat) :
    m.readLE a 4 = (m.byte a).toNat + 256 * (m.byte (a + 1)).toNat + 65536 * (m.byte (a + 2)).toNat
      + 16777216 * (m.byte (a + 3)).toNat := by
  simp only [Memory.readLE, Nat.add_assoc, Nat.reduceAdd]
  omega

/-! ### Completing a step -/

/-- Writing `v` to `rd` and completing at `n` (rules R13, R14, R84). -/
theorem wroteReg_complete (s : State) (rd : RegIdx) (v n : Word) :
    WroteReg s ((s.setReg rd v).complete n) rd v n where
  pc := rfl
  dest h := by rw [reg_complete_ne _ _ _ h, reg_setReg_self]
  zero := reg_complete_zero _ _
  others r h0 hr := by rw [reg_complete_ne _ _ _ h0, reg_setReg_ne _ _ _ _ (Ne.symm hr)]
  bytes _ := rfl
  memLen := rfl
  run := rfl
  out := rfl

/-- Completing at `n` with no register and no memory written. -/
theorem onlyMoves_complete (s : State) (n : Word) : OnlyMoves s (s.complete n) n where
  pc := rfl
  zero := reg_complete_zero _ _
  regs _ h := reg_complete_ne _ _ _ h
  bytes _ := rfl
  memLen := rfl
  run := rfl
  out := rfl

theorem writeBack_spec (s : State) (rd : RegIdx) (v : Word) :
    ∃ t, s.writeBack rd v = .next t ∧ WroteReg s t rd v s.pcPlus4 :=
  ⟨_, rfl, wroteReg_complete s rd v s.pcPlus4⟩

theorem link_spec (s : State) (rd : RegIdx) (target : Word) :
    ∃ t, s.link rd target = .next t ∧ WroteReg s t rd s.pcPlus4 target :=
  ⟨_, rfl, wroteReg_complete s rd s.pcPlus4 target⟩

theorem branch_spec (s : State) (taken : Bool) (target : Word) :
    ∃ t, s.branch taken target = .next t ∧ OnlyMoves s t (if taken then target else s.pcPlus4) :=
  ⟨_, rfl, onlyMoves_complete s _⟩

/-- Forcing the low bit of a word to zero (rule R131). -/
theorem toNat_clearLowBit (v : Word) : (v &&& 0xFFFFFFFE#32).toNat = v.toNat / 2 * 2 := by
  have h : v &&& 0xFFFFFFFE#32 = (v >>> 1) <<< 1 := by
    apply BitVec.eq_of_getLsbD_eq
    intro k hk
    have hm : (0xFFFFFFFE#32).getLsbD k = decide (1 ≤ k) := by
      interval_cases k <;> decide
    rw [BitVec.getLsbD_and, hm, BitVec.getLsbD_shiftLeft, BitVec.getLsbD_ushiftRight]
    by_cases h1 : 1 ≤ k
    · simp [h1, hk, show 1 + (k - 1) = k by omega]
      omega
    · simp [h1, show k < 1 by omega]
  rw [h, BitVec.toNat_shiftLeft, BitVec.toNat_ushiftRight, Nat.shiftRight_eq_div_pow, Nat.shiftLeft_eq]
  have := v.isLt
  omega

/-! ### Loads and stores -/

theorem load_inBounds {w : Width} {ext : Word → Word} {rd : RegIdx} {ea : Word}
    (h : ea.toNat + w.bytes ≤ s.memLen) :
    ∃ v t, s.load w ext rd ea = .next t ∧ v.toNat = s.mem.readLE ea.toNat w.bytes ∧
      WroteReg s t rd (ext v) s.pcPlus4 := by
  have hr := memRead_inBounds (w := w) h
  refine ⟨_, (s.setReg rd (ext _)).complete s.pcPlus4, ?_, toNat_memRead hr, wroteReg_complete _ _ _ _⟩
  simp only [State.load, hr, State.writeBack]

theorem load_outOfBounds {w : Width} {ext : Word → Word} {rd : RegIdx} {ea : Word}
    (h : s.memLen < ea.toNat + w.bytes) :
    s.load w ext rd ea = .next (s.raiseOutOfBounds ea.toNat w) := by
  simp only [State.load, memRead_outOfBounds h]

theorem store_inBounds {w : Width} {ea v : Word} (h : ea.toNat + w.bytes ≤ s.memLen) :
    s.store w ea v =
      .next (({ s with mem := s.mem.writeLE ea.toNat w.bytes v } : State).complete s.pcPlus4) := by
  simp only [State.store, memWrite_inBounds v h]

theorem store_outOfBounds {w : Width} {ea v : Word} (h : s.memLen < ea.toNat + w.bytes) :
    s.store w ea v = .next (s.raiseOutOfBounds ea.toNat w) := by
  simp only [State.store, memWrite_outOfBounds v h]

/-- A store in bounds: the stored bytes and the frame (rules R33, R118). -/
theorem storedBytes_complete (hwf : s.mem.wf) (a n : Nat) (v next : Word) :
    StoredBytes s (({ s with mem := s.mem.writeLE a n v } : State).complete next) a n v next where
  pc := rfl
  zero := reg_complete_zero _ _
  regs r h := by rw [reg_complete_ne _ _ _ h, withMem_reg]
  stored i hi := by
    rw [← toNat_byte_part]
    exact congrArg BitVec.toNat (byte_writeLE_inside hwf v hi)
  outside x hx := byte_writeLE_outside hwf v hx
  memLen := rfl
  run := rfl
  out := rfl

/-! ### The write call -/

/-- One byte read of one byte: the byte itself. -/
theorem memRead_byte {a : Nat} (h : a < s.memLen) :
    s.memRead a .byte = some (BitVec.ofNat 32 (s.byte a).toNat) := by
  rw [memRead_inBounds (by exact h)]
  simp [Width.bytes, readLE_one, State.byte]

/-- Emission changes nothing but the output stream, and only appends to it. -/
theorem emitBytes_frame (cnt a : Nat) (s : State) :
    ∃ bs, (State.emitBytes cnt a s).1 = { s with out := s.out ++ bs } := by
  induction cnt generalizing a s with
  | zero => exact ⟨[], by simp [State.emitBytes]⟩
  | succ cnt ih =>
    simp only [State.emitBytes]
    split
    · exact ⟨[], by simp⟩
    · rename_i b _
      obtain ⟨bs, h⟩ := ih (a + 1) (s.emit (b.setWidth 8))
      exact ⟨b.setWidth 8 :: bs, by rw [h]; simp [State.emit]⟩

/-- In bounds, every byte is emitted in ascending order (rule R139). -/
theorem emitBytes_inBounds {cnt a : Nat} (h : cnt = 0 ∨ a + cnt ≤ s.memLen) :
    State.emitBytes cnt a s =
      ({ s with out := s.out ++ (List.range cnt).map (fun i => s.byte (a + i)) }, none) := by
  induction cnt generalizing a s with
  | zero => simp [State.emitBytes]
  | succ cnt ih =>
    have hb : a + (cnt + 1) ≤ s.memLen := by omega
    simp only [State.emitBytes]
    rw [memRead_byte (by omega)]
    simp only
    rw [ih (.inr (by simp only [emit_memLen]; omega))]
    simp [State.emit, State.byte, List.range_succ_eq_map, Nat.add_assoc, Nat.add_comm 1, Function.comp_def]

/-- Out of bounds, the emission stops at the first address past memory (rule R139). -/
theorem emitBytes_outOfBounds {cnt a : Nat} (h0 : cnt ≠ 0) (h : s.memLen < a + cnt) :
    (State.emitBytes cnt a s).2 = some (max a s.memLen) := by
  induction cnt generalizing a s with
  | zero => exact absurd rfl h0
  | succ cnt ih =>
    simp only [State.emitBytes]
    by_cases ha : a < s.memLen
    · rw [memRead_byte ha]
      simp only
      rw [ih (by omega) (by simp only [emit_memLen]; omega)]
      simp only [emit_memLen]
      congr 1
      omega
    · rw [memRead_outOfBounds (by simp only [Width.bytes]; omega)]
      simp only
      congr 1
      omega

end Sys2Proof.Machine
end

