-- ==== Sys2Proof/Laws/Exec.lean ====
section
/-! SUPPORT. What an executed instruction can do, over all 39 of them: one inversion lemma for `exec` and one for `step`. -/

namespace Sys2Proof.Machine

/-- Where an instruction goes on when it completes (rule R87). -/
def nextPc : Instr → State → Word
  | .jal _ imm, s => s.pcTarget imm
  | .jalr _ rs1 imm, s => s.indirectTarget rs1 imm
  | .beq rs1 rs2 imm, s => if s.reg rs1 == s.reg rs2 then s.pcTarget imm else s.pcPlus4
  | .bne rs1 rs2 imm, s => if s.reg rs1 != s.reg rs2 then s.pcTarget imm else s.pcPlus4
  | .blt rs1 rs2 imm, s => if lessSigned (s.reg rs1) (s.reg rs2) then s.pcTarget imm else s.pcPlus4
  | .bge rs1 rs2 imm, s => if !lessSigned (s.reg rs1) (s.reg rs2) then s.pcTarget imm else s.pcPlus4
  | .bltu rs1 rs2 imm, s => if lessUnsigned (s.reg rs1) (s.reg rs2) then s.pcTarget imm else s.pcPlus4
  | .bgeu rs1 rs2 imm, s => if !lessUnsigned (s.reg rs1) (s.reg rs2) then s.pcTarget imm else s.pcPlus4
  | _, s => s.pcPlus4

/-- The ways an instruction's execution can end. -/
inductive ExecEffect (i : Instr) (s t : State) : Prop where
  /-- it writes one register and completes -/
  | wrote (rd : RegIdx) (v : Word) (hd : i.dest = some rd) (ht : t = (s.setReg rd v).complete (nextPc i s))
  /-- it completes and writes nothing -/
  | moved (hd : i.dest = none) (ht : t = s.complete (nextPc i s))
  /-- it stores in bounds and completes -/
  | stored (a : Nat) (w : Width) (v : Word) (hs : i.isStore) (ha : i.access s = some (a, w.bytes))
      (hb : a + w.bytes ≤ s.memLen)
      (ht : t = ({ s with mem := s.mem.writeLE a w.bytes v } : State).complete s.pcPlus4)
  /-- a load or store out of bounds -/
  | outside (a : Nat) (w : Width) (ha : i.access s = some (a, w.bytes)) (hb : s.memLen < a + w.bytes)
      (ht : t = s.raiseOutOfBounds a w)
  /-- the exit call -/
  | exited (hi : i = .ecall) (hn : s.reg Config.a7 = Config.exitCall) (ht : t = s.exitCall)
  /-- the write call -/
  | wroteOut (hi : i = .ecall) (hn : s.reg Config.a7 = Config.writeCall) (ht : t = s.writeCall)
  /-- another environment call -/
  | badCall (hi : i = .ecall) (h1 : s.reg Config.a7 ≠ Config.exitCall) (h4 : s.reg Config.a7 ≠ Config.writeCall)
      (ht : t = s.raise .unsupportedSyscall (.callNumber (s.reg Config.a7)))
  /-- the breakpoint -/
  | breakpoint (hi : i = .ebreak) (ht : t = s.raise .breakpoint (.atPc s.pc))

theorem load_effect {i : Instr} {s t : State} {w : Width} {ext : Word → Word} {rd : RegIdx} {ea : Word}
    (hd : i.dest = some rd) (hn : nextPc i s = s.pcPlus4) (ha : i.access s = some (ea.toNat, w.bytes))
    (h : s.load w ext rd ea = .next t) :
    ExecEffect i s t := by
  by_cases hb : ea.toNat + w.bytes ≤ s.memLen
  · have h' : s.load w ext rd ea =
        .next ((s.setReg rd (ext (BitVec.ofNat 32 (s.mem.readLE ea.toNat w.bytes)))).complete s.pcPlus4) := by
      simp only [State.load, memRead_inBounds hb, State.writeBack]
    rw [h'] at h
    exact .wrote rd _ hd (by rw [hn]; exact (Host.Outcome.next.inj h).symm)
  · rw [load_outOfBounds (by omega)] at h
    exact .outside _ w ha (by omega) (Host.Outcome.next.inj h).symm

theorem store_effect {i : Instr} {s t : State} {w : Width} {ea v : Word} (hs : i.isStore)
    (ha : i.access s = some (ea.toNat, w.bytes)) (h : s.store w ea v = .next t) : ExecEffect i s t := by
  by_cases hb : ea.toNat + w.bytes ≤ s.memLen
  · rw [store_inBounds hb] at h
    exact .stored _ w v hs ha hb (Host.Outcome.next.inj h).symm
  · rw [store_outOfBounds (by omega)] at h
    exact .outside _ w ha (by omega) (Host.Outcome.next.inj h).symm

theorem ecall_effect {s t : State} (h : execEcall s = .next t) : ExecEffect .ecall s t := by
  unfold execEcall at h
  split at h
  · rename_i h1
    exact .exited rfl h1 (Host.Outcome.next.inj h).symm
  · rename_i h1
    split at h
    · rename_i h4
      exact .wroteOut rfl h4 (Host.Outcome.next.inj h).symm
    · rename_i h4
      exact .badCall rfl h1 h4 (Host.Outcome.next.inj h).symm

/-- What one executed instruction can do. -/
theorem exec_effect {i : Instr} {s t : State} (h : exec i s = .next t) : ExecEffect i s t := by
  cases i with
  | lb rd rs1 imm => exact load_effect rfl rfl rfl h
  | lh rd rs1 imm => exact load_effect rfl rfl rfl h
  | lw rd rs1 imm => exact load_effect rfl rfl rfl h
  | lbu rd rs1 imm => exact load_effect rfl rfl rfl h
  | lhu rd rs1 imm => exact load_effect rfl rfl rfl h
  | sb rs1 rs2 imm => exact store_effect trivial rfl h
  | sh rs1 rs2 imm => exact store_effect trivial rfl h
  | sw rs1 rs2 imm => exact store_effect trivial rfl h
  | beq rs1 rs2 imm => exact .moved rfl (Host.Outcome.next.inj h).symm
  | bne rs1 rs2 imm => exact .moved rfl (Host.Outcome.next.inj h).symm
  | blt rs1 rs2 imm => exact .moved rfl (Host.Outcome.next.inj h).symm
  | bge rs1 rs2 imm => exact .moved rfl (Host.Outcome.next.inj h).symm
  | bltu rs1 rs2 imm => exact .moved rfl (Host.Outcome.next.inj h).symm
  | bgeu rs1 rs2 imm => exact .moved rfl (Host.Outcome.next.inj h).symm
  | ecall => exact ecall_effect h
  | ebreak => exact .breakpoint rfl (Host.Outcome.next.inj h).symm
  | _ => exact .wrote _ _ rfl (Host.Outcome.next.inj h).symm

/-- What the write call can do: complete with bytes appended, or stop out of bounds with some appended (rule R139). -/
theorem writeCall_cases (s : State) :
    ∃ bs, s.writeCall = ({ s with out := s.out ++ bs } : State).complete s.pcPlus4 ∨
      ∃ a, s.writeCall = ({ s with out := s.out ++ bs } : State).raiseOutOfBounds a .byte := by
  obtain ⟨bs, h⟩ := emitBytes_frame (s.reg Config.a2).toNat (s.reg Config.a1).toNat s
  refine ⟨bs, ?_⟩
  unfold State.writeCall
  split
  · rename_i t ht
    rw [ht] at h
    simp only at h
    exact .inl (by rw [h])
  · rename_i t a ht
    rw [ht] at h
    simp only at h
    exact .inr ⟨a, by rw [h]⟩

/-! ### The fetch (rule R37) -/

/-- The fetched word is the word of the four bytes at the pc. -/
theorem fetch_eq_some {s : State} {w : Word} : s.fetch = some w ↔ s.canFetch ∧ w = s.wordAtPc := by
  have h : BitVec.ofNat 32 (s.mem.readLE s.pc.toNat Width.word.bytes) = s.wordAtPc := by
    apply BitVec.eq_of_toNat_eq
    rw [Width.bytes, readLE_four, State.wordAtPc, wordOfBytes]
    simp only [State.byte]
    generalize s.mem.byte _ = b0
    generalize s.mem.byte _ = b1
    generalize s.mem.byte _ = b2
    generalize s.mem.byte _ = b3
    have := b0.isLt
    have := b1.isLt
    have := b2.isLt
    have := b3.isLt
    simp only [BitVec.toNat_append, BitVec.toNat_ofNat]
    rw [← Nat.shiftLeft_add_eq_or_of_lt (by omega), ← Nat.shiftLeft_add_eq_or_of_lt (by omega),
      ← Nat.shiftLeft_add_eq_or_of_lt (by omega)]
    simp only [Nat.shiftLeft_eq]
    omega
  rw [State.fetch, memRead_eq_some, h]
  exact Iff.rfl

theorem fetch_eq_none {s : State} : s.fetch = none ↔ ¬ s.canFetch := by
  constructor
  · intro h hc
    rw [fetch_eq_some.2 ⟨hc, rfl⟩] at h
    cases h
  · intro h
    cases hf : s.fetch with
    | none => rfl
    | some w => exact absurd (fetch_eq_some.1 hf).1 h

/-- A word stored in memory is the word fetched from there. -/
theorem wordOfBytes_writeLE {m : Memory} (h : m.wf) (a : Nat) (v : Word) :
    wordOfBytes ((m.writeLE a 4 v).byte a) ((m.writeLE a 4 v).byte (a + 1)) ((m.writeLE a 4 v).byte (a + 2))
      ((m.writeLE a 4 v).byte (a + 3)) = v := by
  have hb : ∀ i, i < 4 → (m.writeLE a 4 v).byte (a + i) = v.extractLsb' (8 * i) 8 :=
    fun i hi => byte_writeLE_inside h v hi
  rw [show (m.writeLE a 4 v).byte a = v.extractLsb' 0 8 from hb 0 (by decide), hb 1 (by decide), hb 2 (by decide),
    hb 3 (by decide)]
  exact wordOfBytes_bytesOfWord v

/-- The ways a step of a machine can end. -/
inductive StepEffect (s t : State) : Prop where
  /-- the fetch is out of bounds -/
  | noFetch (hf : s.memLen < s.pc.toNat + 4) (ht : t = s.raiseOutOfBounds s.pc.toNat .word)
  /-- the fetched word is no instruction -/
  | noInstr (w : Word) (r : DecodeReject) (hf : s.fetch = some w) (hd : decodeWord w = .error r)
      (ht : t = s.raise .unsupportedInstruction (.word w))
  /-- the fetched word is an instruction, which is executed -/
  | executed (w : Word) (i : Instr) (hf : s.fetch = some w) (hd : decodeWord w = .ok i) (he : exec i s = .next t)

/-- A step that answers a next state is the step of a running machine, in one of three ways (rule R80). -/
theorem step_effect {s t : State} (h : step s = .next t) : s.run = .running ∧ StepEffect s t := by
  unfold step at h
  split at h
  · rename_i hr
    refine ⟨hr, ?_⟩
    unfold runningStep at h
    split at h
    · rename_i hf
      have hb : s.memLen < s.pc.toNat + 4 := by
        by_contra hb
        rw [State.fetch, memRead_inBounds (by simp only [Width.bytes]; omega)] at hf
        cases hf
      exact .noFetch hb (Host.Outcome.next.inj h).symm
    · rename_i w hf
      unfold execWord at h
      split at h
      · rename_i i hd
        exact .executed w i hf hd h
      · rename_i r hd
        exact .noInstr w r hf hd (Host.Outcome.next.inj h).symm
  · cases h
  · cases h

end Sys2Proof.Machine
end

