-- ==== Sys2Proof/Laws/PerInstr.lean ====
section
/-! SUPPORT. The statements made per instruction (LAWS.json).

EncodeRow: the encoder writes the fixed bits of the instruction's row of spec/opcode_table.json: its opcode, and its
`funct3` and `funct7` where the row's mask fixes them. -/

namespace Sys2Proof.Laws.EncodeRow

/-- The word of the instruction has the fixed bits of its row. -/
def Statement (i : Instr) : Prop :=
  opcodeField (encode i) = opcodeField i.rowMatch ∧
  funct3Field (encode i) &&& funct3Field i.rowMask = funct3Field i.rowMatch ∧
  funct7Field (encode i) &&& funct7Field i.rowMask = funct7Field i.rowMatch

/-- A selector the row's mask does not fix is no part of the row. -/
theorem unfixed {n : Nat} {v m f : BitVec n} (hm : m = 0#n) (hf : f = 0#n) : v &&& m = f := by
  rw [hm, hf, BitVec.and_zero]

/-- A selector the row's mask fixes is the row's. -/
theorem fixed {n : Nat} {v m f : BitVec n} (hv : v = f) (hm : m = BitVec.allOnes n) : v &&& m = f := by
  rw [hm, hv, BitVec.and_allOnes]

theorem addi (rd rs1 : RegIdx) (imm : Word) : Statement (.addi rd rs1 imm) := by
  refine ⟨(opcodeField_encodeI ..).trans ?_, fixed ((funct3Field_encodeI ..).trans ?_) ?_, unfixed ?_ ?_⟩ <;>
    simp only [Instr.rowMatch, Instr.rowMask] <;> decide

theorem slti (rd rs1 : RegIdx) (imm : Word) : Statement (.slti rd rs1 imm) := by
  refine ⟨(opcodeField_encodeI ..).trans ?_, fixed ((funct3Field_encodeI ..).trans ?_) ?_, unfixed ?_ ?_⟩ <;>
    simp only [Instr.rowMatch, Instr.rowMask] <;> decide

theorem sltiu (rd rs1 : RegIdx) (imm : Word) : Statement (.sltiu rd rs1 imm) := by
  refine ⟨(opcodeField_encodeI ..).trans ?_, fixed ((funct3Field_encodeI ..).trans ?_) ?_, unfixed ?_ ?_⟩ <;>
    simp only [Instr.rowMatch, Instr.rowMask] <;> decide

theorem xori (rd rs1 : RegIdx) (imm : Word) : Statement (.xori rd rs1 imm) := by
  refine ⟨(opcodeField_encodeI ..).trans ?_, fixed ((funct3Field_encodeI ..).trans ?_) ?_, unfixed ?_ ?_⟩ <;>
    simp only [Instr.rowMatch, Instr.rowMask] <;> decide

theorem ori (rd rs1 : RegIdx) (imm : Word) : Statement (.ori rd rs1 imm) := by
  refine ⟨(opcodeField_encodeI ..).trans ?_, fixed ((funct3Field_encodeI ..).trans ?_) ?_, unfixed ?_ ?_⟩ <;>
    simp only [Instr.rowMatch, Instr.rowMask] <;> decide

theorem andi (rd rs1 : RegIdx) (imm : Word) : Statement (.andi rd rs1 imm) := by
  refine ⟨(opcodeField_encodeI ..).trans ?_, fixed ((funct3Field_encodeI ..).trans ?_) ?_, unfixed ?_ ?_⟩ <;>
    simp only [Instr.rowMatch, Instr.rowMask] <;> decide

theorem slli (rd rs1 : RegIdx) (shamt : BitVec 5) : Statement (.slli rd rs1 shamt) := by
  refine ⟨(opcodeField_encodeShift ..).trans ?_, fixed ((funct3Field_encodeShift ..).trans ?_) ?_,
    fixed ((funct7Field_encodeShift ..).trans ?_) ?_⟩ <;>
    simp only [Instr.rowMatch, Instr.rowMask] <;> decide

theorem srli (rd rs1 : RegIdx) (shamt : BitVec 5) : Statement (.srli rd rs1 shamt) := by
  refine ⟨(opcodeField_encodeShift ..).trans ?_, fixed ((funct3Field_encodeShift ..).trans ?_) ?_,
    fixed ((funct7Field_encodeShift ..).trans ?_) ?_⟩ <;>
    simp only [Instr.rowMatch, Instr.rowMask] <;> decide

theorem srai (rd rs1 : RegIdx) (shamt : BitVec 5) : Statement (.srai rd rs1 shamt) := by
  refine ⟨(opcodeField_encodeShift ..).trans ?_, fixed ((funct3Field_encodeShift ..).trans ?_) ?_,
    fixed ((funct7Field_encodeShift ..).trans ?_) ?_⟩ <;>
    simp only [Instr.rowMatch, Instr.rowMask] <;> decide

theorem add (rd rs1 rs2 : RegIdx) : Statement (.add rd rs1 rs2) := by
  refine ⟨(opcodeField_encodeR ..).trans ?_, fixed ((funct3Field_encodeR ..).trans ?_) ?_,
    fixed ((funct7Field_encodeR ..).trans ?_) ?_⟩ <;>
    simp only [Instr.rowMatch, Instr.rowMask] <;> decide

theorem sub (rd rs1 rs2 : RegIdx) : Statement (.sub rd rs1 rs2) := by
  refine ⟨(opcodeField_encodeR ..).trans ?_, fixed ((funct3Field_encodeR ..).trans ?_) ?_,
    fixed ((funct7Field_encodeR ..).trans ?_) ?_⟩ <;>
    simp only [Instr.rowMatch, Instr.rowMask] <;> decide

theorem sll (rd rs1 rs2 : RegIdx) : Statement (.sll rd rs1 rs2) := by
  refine ⟨(opcodeField_encodeR ..).trans ?_, fixed ((funct3Field_encodeR ..).trans ?_) ?_,
    fixed ((funct7Field_encodeR ..).trans ?_) ?_⟩ <;>
    simp only [Instr.rowMatch, Instr.rowMask] <;> decide

theorem slt (rd rs1 rs2 : RegIdx) : Statement (.slt rd rs1 rs2) := by
  refine ⟨(opcodeField_encodeR ..).trans ?_, fixed ((funct3Field_encodeR ..).trans ?_) ?_,
    fixed ((funct7Field_encodeR ..).trans ?_) ?_⟩ <;>
    simp only [Instr.rowMatch, Instr.rowMask] <;> decide

theorem sltu (rd rs1 rs2 : RegIdx) : Statement (.sltu rd rs1 rs2) := by
  refine ⟨(opcodeField_encodeR ..).trans ?_, fixed ((funct3Field_encodeR ..).trans ?_) ?_,
    fixed ((funct7Field_encodeR ..).trans ?_) ?_⟩ <;>
    simp only [Instr.rowMatch, Instr.rowMask] <;> decide

theorem xor (rd rs1 rs2 : RegIdx) : Statement (.xor rd rs1 rs2) := by
  refine ⟨(opcodeField_encodeR ..).trans ?_, fixed ((funct3Field_encodeR ..).trans ?_) ?_,
    fixed ((funct7Field_encodeR ..).trans ?_) ?_⟩ <;>
    simp only [Instr.rowMatch, Instr.rowMask] <;> decide

theorem srl (rd rs1 rs2 : RegIdx) : Statement (.srl rd rs1 rs2) := by
  refine ⟨(opcodeField_encodeR ..).trans ?_, fixed ((funct3Field_encodeR ..).trans ?_) ?_,
    fixed ((funct7Field_encodeR ..).trans ?_) ?_⟩ <;>
    simp only [Instr.rowMatch, Instr.rowMask] <;> decide

theorem sra (rd rs1 rs2 : RegIdx) : Statement (.sra rd rs1 rs2) := by
  refine ⟨(opcodeField_encodeR ..).trans ?_, fixed ((funct3Field_encodeR ..).trans ?_) ?_,
    fixed ((funct7Field_encodeR ..).trans ?_) ?_⟩ <;>
    simp only [Instr.rowMatch, Instr.rowMask] <;> decide

theorem or (rd rs1 rs2 : RegIdx) : Statement (.or rd rs1 rs2) := by
  refine ⟨(opcodeField_encodeR ..).trans ?_, fixed ((funct3Field_encodeR ..).trans ?_) ?_,
    fixed ((funct7Field_encodeR ..).trans ?_) ?_⟩ <;>
    simp only [Instr.rowMatch, Instr.rowMask] <;> decide

theorem and (rd rs1 rs2 : RegIdx) : Statement (.and rd rs1 rs2) := by
  refine ⟨(opcodeField_encodeR ..).trans ?_, fixed ((funct3Field_encodeR ..).trans ?_) ?_,
    fixed ((funct7Field_encodeR ..).trans ?_) ?_⟩ <;>
    simp only [Instr.rowMatch, Instr.rowMask] <;> decide

theorem lb (rd rs1 : RegIdx) (imm : Word) : Statement (.lb rd rs1 imm) := by
  refine ⟨(opcodeField_encodeI ..).trans ?_, fixed ((funct3Field_encodeI ..).trans ?_) ?_, unfixed ?_ ?_⟩ <;>
    simp only [Instr.rowMatch, Instr.rowMask] <;> decide

theorem lh (rd rs1 : RegIdx) (imm : Word) : Statement (.lh rd rs1 imm) := by
  refine ⟨(opcodeField_encodeI ..).trans ?_, fixed ((funct3Field_encodeI ..).trans ?_) ?_, unfixed ?_ ?_⟩ <;>
    simp only [Instr.rowMatch, Instr.rowMask] <;> decide

theorem lw (rd rs1 : RegIdx) (imm : Word) : Statement (.lw rd rs1 imm) := by
  refine ⟨(opcodeField_encodeI ..).trans ?_, fixed ((funct3Field_encodeI ..).trans ?_) ?_, unfixed ?_ ?_⟩ <;>
    simp only [Instr.rowMatch, Instr.rowMask] <;> decide

theorem lbu (rd rs1 : RegIdx) (imm : Word) : Statement (.lbu rd rs1 imm) := by
  refine ⟨(opcodeField_encodeI ..).trans ?_, fixed ((funct3Field_encodeI ..).trans ?_) ?_, unfixed ?_ ?_⟩ <;>
    simp only [Instr.rowMatch, Instr.rowMask] <;> decide

theorem lhu (rd rs1 : RegIdx) (imm : Word) : Statement (.lhu rd rs1 imm) := by
  refine ⟨(opcodeField_encodeI ..).trans ?_, fixed ((funct3Field_encodeI ..).trans ?_) ?_, unfixed ?_ ?_⟩ <;>
    simp only [Instr.rowMatch, Instr.rowMask] <;> decide

theorem sb (rs1 rs2 : RegIdx) (imm : Word) : Statement (.sb rs1 rs2 imm) := by
  refine ⟨(opcodeField_encodeS ..).trans ?_, fixed ((funct3Field_encodeS ..).trans ?_) ?_, unfixed ?_ ?_⟩ <;>
    simp only [Instr.rowMatch, Instr.rowMask] <;> decide

theorem sh (rs1 rs2 : RegIdx) (imm : Word) : Statement (.sh rs1 rs2 imm) := by
  refine ⟨(opcodeField_encodeS ..).trans ?_, fixed ((funct3Field_encodeS ..).trans ?_) ?_, unfixed ?_ ?_⟩ <;>
    simp only [Instr.rowMatch, Instr.rowMask] <;> decide

theorem sw (rs1 rs2 : RegIdx) (imm : Word) : Statement (.sw rs1 rs2 imm) := by
  refine ⟨(opcodeField_encodeS ..).trans ?_, fixed ((funct3Field_encodeS ..).trans ?_) ?_, unfixed ?_ ?_⟩ <;>
    simp only [Instr.rowMatch, Instr.rowMask] <;> decide

theorem beq (rs1 rs2 : RegIdx) (imm : Word) : Statement (.beq rs1 rs2 imm) := by
  refine ⟨(opcodeField_encodeB ..).trans ?_, fixed ((funct3Field_encodeB ..).trans ?_) ?_, unfixed ?_ ?_⟩ <;>
    simp only [Instr.rowMatch, Instr.rowMask] <;> decide

theorem bne (rs1 rs2 : RegIdx) (imm : Word) : Statement (.bne rs1 rs2 imm) := by
  refine ⟨(opcodeField_encodeB ..).trans ?_, fixed ((funct3Field_encodeB ..).trans ?_) ?_, unfixed ?_ ?_⟩ <;>
    simp only [Instr.rowMatch, Instr.rowMask] <;> decide

theorem blt (rs1 rs2 : RegIdx) (imm : Word) : Statement (.blt rs1 rs2 imm) := by
  refine ⟨(opcodeField_encodeB ..).trans ?_, fixed ((funct3Field_encodeB ..).trans ?_) ?_, unfixed ?_ ?_⟩ <;>
    simp only [Instr.rowMatch, Instr.rowMask] <;> decide

theorem bge (rs1 rs2 : RegIdx) (imm : Word) : Statement (.bge rs1 rs2 imm) := by
  refine ⟨(opcodeField_encodeB ..).trans ?_, fixed ((funct3Field_encodeB ..).trans ?_) ?_, unfixed ?_ ?_⟩ <;>
    simp only [Instr.rowMatch, Instr.rowMask] <;> decide

theorem bltu (rs1 rs2 : RegIdx) (imm : Word) : Statement (.bltu rs1 rs2 imm) := by
  refine ⟨(opcodeField_encodeB ..).trans ?_, fixed ((funct3Field_encodeB ..).trans ?_) ?_, unfixed ?_ ?_⟩ <;>
    simp only [Instr.rowMatch, Instr.rowMask] <;> decide

theorem bgeu (rs1 rs2 : RegIdx) (imm : Word) : Statement (.bgeu rs1 rs2 imm) := by
  refine ⟨(opcodeField_encodeB ..).trans ?_, fixed ((funct3Field_encodeB ..).trans ?_) ?_, unfixed ?_ ?_⟩ <;>
    simp only [Instr.rowMatch, Instr.rowMask] <;> decide

theorem jal (rd : RegIdx) (imm : Word) : Statement (.jal rd imm) := by
  refine ⟨(opcodeField_encodeJ _ _).trans ?_, unfixed ?_ ?_, unfixed ?_ ?_⟩ <;>
    simp only [Instr.rowMatch, Instr.rowMask] <;> decide

theorem jalr (rd rs1 : RegIdx) (imm : Word) : Statement (.jalr rd rs1 imm) := by
  refine ⟨(opcodeField_encodeI ..).trans ?_, unfixed ?_ ?_, unfixed ?_ ?_⟩ <;>
    simp only [Instr.rowMatch, Instr.rowMask] <;> decide

theorem lui (rd : RegIdx) (imm : Word) : Statement (.lui rd imm) := by
  refine ⟨(opcodeField_encodeU ..).trans ?_, unfixed ?_ ?_, unfixed ?_ ?_⟩ <;>
    simp only [Instr.rowMatch, Instr.rowMask] <;> decide

theorem auipc (rd : RegIdx) (imm : Word) : Statement (.auipc rd imm) := by
  refine ⟨(opcodeField_encodeU ..).trans ?_, unfixed ?_ ?_, unfixed ?_ ?_⟩ <;>
    simp only [Instr.rowMatch, Instr.rowMask] <;> decide

theorem ecall : Statement .ecall := ⟨rfl, rfl, rfl⟩

theorem ebreak : Statement .ebreak := ⟨rfl, rfl, rfl⟩

end Sys2Proof.Laws.EncodeRow
end

