-- ==== Sys2Proof/Laws/Reset.lean ====
section
/-! SUPPORT. The memory that reset builds, and that `State.reset` is reset at the default arguments. -/

namespace Sys2Proof.Machine

theorem wf_initMemory (f : Nat → Byte) (n : Nat) : (initMemory f n).wf := by
  induction n with
  | zero => exact ⟨List.Pairwise.nil, by simp [initMemory]⟩
  | succ n ih => exact wf_setByte ih n _

theorem byte_initMemory (f : Nat → Byte) (n a : Nat) :
    (initMemory f n).byte a = if a < n then f a else Config.unlistedByte := by
  induction n with
  | zero => rfl
  | succ n ih =>
    rw [initMemory, byte_setByte (wf_initMemory f n), ih]
    by_cases h : a = n
    · rw [if_pos h, if_pos (by omega), h]
    · rw [if_neg h]
      by_cases h' : a < n
      · rw [if_pos h', if_pos (by omega)]
      · rw [if_neg h', if_neg (by omega)]

theorem mem_initMemory {f : Nat → Byte} {n : Nat} {c : Host.Cell} (h : c ∈ initMemory f n) : c.1 < n := by
  induction n with
  | zero => simp [initMemory] at h
  | succ n ih =>
    rcases mem_setByte h with h | ⟨rfl, -⟩
    · exact Nat.lt_succ_of_lt (ih h)
    · exact Nat.lt_succ_self n

theorem wf_loadImage {m : Memory} (h : m.wf) (a : Nat) (image : List Byte) : (m.loadImage a image).wf := by
  induction image generalizing m a with
  | nil => exact h
  | cons b rest ih => exact ih (wf_setByte h a b) (a + 1)

theorem byte_loadImage {m : Memory} (h : m.wf) (a : Nat) (image : List Byte) (x : Nat) :
    (m.loadImage a image).byte x =
      if a ≤ x ∧ x < a + image.length then image.getD (x - a) Config.unlistedByte else m.byte x := by
  induction image generalizing m a with
  | nil => rw [if_neg (by simp only [List.length_nil]; omega)]; rfl
  | cons b rest ih =>
    simp only [Memory.loadImage, List.length_cons]
    rw [ih (wf_setByte h a b), byte_setByte h]
    by_cases h1 : x = a
    · subst h1
      rw [if_neg (by omega), if_pos rfl, if_pos (by omega)]
      simp
    · by_cases h2 : a + 1 ≤ x ∧ x < a + 1 + rest.length
      · rw [if_pos h2, if_pos (by omega)]
        have : x - a = (x - (a + 1)) + 1 := by omega
        rw [this, List.getD_cons_succ]
      · rw [if_neg h2, if_neg h1, if_neg (by omega)]

theorem mem_loadImage {m : Memory} {a : Nat} {image : List Byte} {c : Host.Cell} (h : c ∈ m.loadImage a image) :
    c ∈ m ∨ c.1 < a + image.length := by
  induction image generalizing m a with
  | nil => exact .inl h
  | cons b rest ih =>
    simp only [List.length_cons]
    rcases ih h with h | h
    · rcases mem_setByte h with h | ⟨rfl, -⟩
      · exact .inl h
      · exact .inr (by simp)
    · exact .inr (by omega)

/-- A memory whose every byte is the unlisted one lists nothing. -/
theorem initMemory_unlisted (n : Nat) : initMemory (fun _ => Config.unlistedByte) n = [] := by
  induction n with
  | zero => rfl
  | succ n ih => rw [initMemory, ih]; rfl

/-- `State.reset` is reset at the arguments of Config.lean (notes/assumptions/3.md). -/
theorem resetWith_default : State.resetWith .default = .next State.reset := by
  have h : (ResetArgs.default.memSize ≤ Config.addressSpace ∧
      ResetArgs.default.base.toNat + ResetArgs.default.image.length ≤ Config.addressSpace) := by decide
  have hm : (initMemory ResetArgs.default.memInit ResetArgs.default.memSize).loadImage
      ResetArgs.default.base.toNat ResetArgs.default.image = [] := by
    show (initMemory (fun _ => Config.unlistedByte) Config.memSize).loadImage 0 [] = []
    rw [initMemory_unlisted]
    rfl
  rw [State.resetWith, if_pos h, hm]
  have hl : ResetArgs.default.memLen = Config.memSize := by decide
  have hr : #v[0#32] ++ ResetArgs.default.regInit = State.reset.regs := by decide
  rw [hl, hr]
  rfl

end Sys2Proof.Machine
end

