-- ==== Sys2Proof/Tests/Slice0.lean ====
section
/-! SUPPORT. The model's own tests. Every expected result is the spec's: the encodings of spec/30_encoding.md and the
vectors of spec/95_test_vectors.md (the section is named beside each group). Each theorem about execution is one step. -/

namespace Sys2Proof.Tests

open Sys2Proof Sys2Proof.Machine

/-! ### States and questions -/

/-- Memory with these bytes from an address upwards. -/
def bytesAt (m : Memory) (a : Nat) (bs : List Byte) : Memory := m.loadImage a bs

/-- A running machine with pc = 0x100 and memory length 0x100000: the word there, some registers, some bytes
(the start states of spec/95_test_vectors.md part 2). -/
def vec (w : Word) (regs : List (RegIdx × Word)) (a : Nat) (bs : List Byte) : State :=
  let s : State := { State.reset with pc := 0x100#32
                                      mem := (bytesAt [] 0x100 (bytesOfWord w)).loadImage a bs }
  regs.foldl (fun s p => s.setReg p.1 p.2) s

/-- The same start state with another pc. -/
def vecAt (pc w : Word) (regs : List (RegIdx × Word)) : State :=
  regs.foldl (fun s p => s.setReg p.1 p.2) { State.reset with pc := pc, mem := bytesAt [] pc.toNat (bytesOfWord w) }

/-- The step completes with `v` in `r`, the pc at `pc`, every other register, memory, OUT and the run status unchanged. -/
def wrote (s : State) (r : RegIdx) (v pc : Word) : Bool :=
  match step s with
  | .next t => t == { s with regs := s.regs.set r.toNat v r.isLt, pc := pc }
  | .fault _ => false
  | .refused _ => false

/-- The step completes with nothing changed but the pc. -/
def moved (s : State) (pc : Word) : Bool :=
  match step s with
  | .next t => t == { s with pc := pc }
  | .fault _ => false
  | .refused _ => false

/-- The step completes with these bytes in memory from `a` upwards, the pc at `pc` and no register changed. -/
def stored (s : State) (a : Nat) (bs : List Byte) (pc : Word) : Bool :=
  match step s with
  | .next t => t == { s with mem := s.mem.loadImage a bs, pc := pc }
  | .fault _ => false
  | .refused _ => false

/-- The step ends the run so, and changes nothing else. -/
def ended (s : State) (r : RunStatus) : Bool :=
  match step s with
  | .next t => t == { s with run := r }
  | .fault _ => false
  | .refused _ => false

/-- The step emits these bytes and changes nothing else but the pc and the run status. -/
def emitted (s : State) (bs : List Byte) (pc : Word) (r : RunStatus) : Bool :=
  match step s with
  | .next t => t == { s with out := s.out ++ bs, pc := pc, run := r }
  | .fault _ => false
  | .refused _ => false

/-! ### Well-formedness: an ill-formed term for each check is refused (rules R52 to R56) -/

theorem test_wf_refuses_imm12_I : Instr.wellFormed (.addi 1#5 2#5 0x00000800#32) = false := by decide
theorem test_wf_refuses_imm12_S : Instr.wellFormed (.sw 1#5 2#5 0xFFFFF7FF#32) = false := by decide
theorem test_wf_refuses_immB_range : Instr.wellFormed (.beq 1#5 2#5 0x00001000#32) = false := by decide
theorem test_wf_refuses_immB_odd : Instr.wellFormed (.beq 1#5 2#5 0x00000003#32) = false := by decide
theorem test_wf_refuses_immJ_range : Instr.wellFormed (.jal 1#5 0x00100000#32) = false := by decide
theorem test_wf_refuses_immJ_odd : Instr.wellFormed (.jal 1#5 0x00000001#32) = false := by decide
theorem test_wf_refuses_immU_low : Instr.wellFormed (.lui 1#5 0x00001001#32) = false := by decide

/-! ### Decoding: for every instruction a word written out field by field from rules R51 and R58, and its fixed bits -/

theorem test_decode_addi :
    decodeWord 0b111111111111_00001_000_00001_0010011#32 = .ok (.addi 1#5 1#5 0xFFFFFFFF#32) ∧
      0b111111111111_00001_000_00001_0010011#32 &&& 0x0000707F#32 = 0x00000013#32 := by decide
theorem test_decode_slti :
    decodeWord 0b100000000000_00110_010_00101_0010011#32 = .ok (.slti 5#5 6#5 0xFFFFF800#32) ∧
      0b100000000000_00110_010_00101_0010011#32 &&& 0x0000707F#32 = 0x00002013#32 := by decide
theorem test_decode_sltiu :
    decodeWord 0b000000000001_00110_011_00101_0010011#32 = .ok (.sltiu 5#5 6#5 1#32) ∧
      0b000000000001_00110_011_00101_0010011#32 &&& 0x0000707F#32 = 0x00003013#32 := by decide
theorem test_decode_xori :
    decodeWord 0b010101010101_00110_100_00101_0010011#32 = .ok (.xori 5#5 6#5 0x00000555#32) ∧
      0b010101010101_00110_100_00101_0010011#32 &&& 0x0000707F#32 = 0x00004013#32 := by decide
theorem test_decode_ori :
    decodeWord 0b000011110000_00110_110_00101_0010011#32 = .ok (.ori 5#5 6#5 0x000000F0#32) ∧
      0b000011110000_00110_110_00101_0010011#32 &&& 0x0000707F#32 = 0x00006013#32 := by decide
theorem test_decode_andi :
    decodeWord 0b111100000000_00110_111_00101_0010011#32 = .ok (.andi 5#5 6#5 0xFFFFFF00#32) ∧
      0b111100000000_00110_111_00101_0010011#32 &&& 0x0000707F#32 = 0x00007013#32 := by decide
theorem test_decode_slli :
    decodeWord 0b0000000_11111_00110_001_00101_0010011#32 = .ok (.slli 5#5 6#5 31#5) ∧
      0b0000000_11111_00110_001_00101_0010011#32 &&& 0xFE00707F#32 = 0x00001013#32 := by decide
theorem test_decode_srli :
    decodeWord 0b0000000_00100_00110_101_00101_0010011#32 = .ok (.srli 5#5 6#5 4#5) ∧
      0b0000000_00100_00110_101_00101_0010011#32 &&& 0xFE00707F#32 = 0x00005013#32 := by decide
theorem test_decode_srai :
    decodeWord 0b0100000_00100_00110_101_00101_0010011#32 = .ok (.srai 5#5 6#5 4#5) ∧
      0b0100000_00100_00110_101_00101_0010011#32 &&& 0xFE00707F#32 = 0x40005013#32 := by decide
theorem test_decode_add :
    decodeWord 0b0000000_11111_11111_000_11111_0110011#32 = .ok (.add 31#5 31#5 31#5) ∧
      0b0000000_11111_11111_000_11111_0110011#32 &&& 0xFE00707F#32 = 0x00000033#32 := by decide
theorem test_decode_sub :
    decodeWord 0b0100000_00111_00110_000_00101_0110011#32 = .ok (.sub 5#5 6#5 7#5) ∧
      0b0100000_00111_00110_000_00101_0110011#32 &&& 0xFE00707F#32 = 0x40000033#32 := by decide
theorem test_decode_sll :
    decodeWord 0b0000000_00111_00110_001_00101_0110011#32 = .ok (.sll 5#5 6#5 7#5) ∧
      0b0000000_00111_00110_001_00101_0110011#32 &&& 0xFE00707F#32 = 0x00001033#32 := by decide
theorem test_decode_slt :
    decodeWord 0b0000000_00111_00110_010_00101_0110011#32 = .ok (.slt 5#5 6#5 7#5) ∧
      0b0000000_00111_00110_010_00101_0110011#32 &&& 0xFE00707F#32 = 0x00002033#32 := by decide
theorem test_decode_sltu :
    decodeWord 0b0000000_00111_00110_011_00101_0110011#32 = .ok (.sltu 5#5 6#5 7#5) ∧
      0b0000000_00111_00110_011_00101_0110011#32 &&& 0xFE00707F#32 = 0x00003033#32 := by decide
theorem test_decode_xor :
    decodeWord 0b0000000_00111_00110_100_00101_0110011#32 = .ok (.xor 5#5 6#5 7#5) ∧
      0b0000000_00111_00110_100_00101_0110011#32 &&& 0xFE00707F#32 = 0x00004033#32 := by decide
theorem test_decode_srl :
    decodeWord 0b0000000_00111_00110_101_00101_0110011#32 = .ok (.srl 5#5 6#5 7#5) ∧
      0b0000000_00111_00110_101_00101_0110011#32 &&& 0xFE00707F#32 = 0x00005033#32 := by decide
theorem test_decode_sra :
    decodeWord 0b0100000_00111_00110_101_00101_0110011#32 = .ok (.sra 5#5 6#5 7#5) ∧
      0b0100000_00111_00110_101_00101_0110011#32 &&& 0xFE00707F#32 = 0x40005033#32 := by decide
theorem test_decode_or :
    decodeWord 0b0000000_00111_00110_110_00101_0110011#32 = .ok (.or 5#5 6#5 7#5) ∧
      0b0000000_00111_00110_110_00101_0110011#32 &&& 0xFE00707F#32 = 0x00006033#32 := by decide
theorem test_decode_and :
    decodeWord 0b0000000_00111_00110_111_00101_0110011#32 = .ok (.and 5#5 6#5 7#5) ∧
      0b0000000_00111_00110_111_00101_0110011#32 &&& 0xFE00707F#32 = 0x00007033#32 := by decide
theorem test_decode_lb :
    decodeWord 0b000000001000_00110_000_00101_0000011#32 = .ok (.lb 5#5 6#5 0x00000008#32) ∧
      0b000000001000_00110_000_00101_0000011#32 &&& 0x0000707F#32 = 0x00000003#32 := by decide
theorem test_decode_lh :
    decodeWord 0b000000001001_00110_001_00101_0000011#32 = .ok (.lh 5#5 6#5 0x00000009#32) ∧
      0b000000001001_00110_001_00101_0000011#32 &&& 0x0000707F#32 = 0x00001003#32 := by decide
theorem test_decode_lw :
    decodeWord 0b111111111100_00110_010_00101_0000011#32 = .ok (.lw 5#5 6#5 0xFFFFFFFC#32) ∧
      0b111111111100_00110_010_00101_0000011#32 &&& 0x0000707F#32 = 0x00002003#32 := by decide
theorem test_decode_lbu :
    decodeWord 0b000000001011_00110_100_00101_0000011#32 = .ok (.lbu 5#5 6#5 0x0000000B#32) ∧
      0b000000001011_00110_100_00101_0000011#32 &&& 0x0000707F#32 = 0x00004003#32 := by decide
theorem test_decode_lhu :
    decodeWord 0b000000001010_00110_101_00101_0000011#32 = .ok (.lhu 5#5 6#5 0x0000000A#32) ∧
      0b000000001010_00110_101_00101_0000011#32 &&& 0x0000707F#32 = 0x00005003#32 := by decide
theorem test_decode_sb :
    decodeWord 0b0000000_00111_00110_000_01000_0100011#32 = .ok (.sb 6#5 7#5 0x00000008#32) ∧
      0b0000000_00111_00110_000_01000_0100011#32 &&& 0x0000707F#32 = 0x00000023#32 := by decide
theorem test_decode_sh :
    decodeWord 0b1111111_00111_00110_001_11111_0100011#32 = .ok (.sh 6#5 7#5 0xFFFFFFFF#32) ∧
      0b1111111_00111_00110_001_11111_0100011#32 &&& 0x0000707F#32 = 0x00001023#32 := by decide
theorem test_decode_sw :
    decodeWord 0b0111111_00111_00110_010_11111_0100011#32 = .ok (.sw 6#5 7#5 0x000007FF#32) ∧
      0b0111111_00111_00110_010_11111_0100011#32 &&& 0x0000707F#32 = 0x00002023#32 := by decide
theorem test_decode_beq :
    decodeWord 0b0_000000_00111_00110_000_0000_1_1100011#32 = .ok (.beq 6#5 7#5 0x00000800#32) ∧
      0b0_000000_00111_00110_000_0000_1_1100011#32 &&& 0x0000707F#32 = 0x00000063#32 := by decide
theorem test_decode_bne :
    decodeWord 0b0_000000_00111_00110_001_0001_0_1100011#32 = .ok (.bne 6#5 7#5 0x00000002#32) ∧
      0b0_000000_00111_00110_001_0001_0_1100011#32 &&& 0x0000707F#32 = 0x00001063#32 := by decide
theorem test_decode_blt :
    decodeWord 0b0_000000_00111_00110_100_1000_0_1100011#32 = .ok (.blt 6#5 7#5 0x00000010#32) ∧
      0b0_000000_00111_00110_100_1000_0_1100011#32 &&& 0x0000707F#32 = 0x00004063#32 := by decide
theorem test_decode_bge :
    decodeWord 0b0_111111_00111_00110_101_1111_1_1100011#32 = .ok (.bge 6#5 7#5 0x00000FFE#32) ∧
      0b0_111111_00111_00110_101_1111_1_1100011#32 &&& 0x0000707F#32 = 0x00005063#32 := by decide
theorem test_decode_bltu :
    decodeWord 0b1_000000_00111_00110_110_0000_0_1100011#32 = .ok (.bltu 6#5 7#5 0xFFFFF000#32) ∧
      0b1_000000_00111_00110_110_0000_0_1100011#32 &&& 0x0000707F#32 = 0x00006063#32 := by decide
theorem test_decode_bgeu :
    decodeWord 0b1_111111_00111_00110_111_1111_1_1100011#32 = .ok (.bgeu 6#5 7#5 0xFFFFFFFE#32) ∧
      0b1_111111_00111_00110_111_1111_1_1100011#32 &&& 0x0000707F#32 = 0x00007063#32 := by decide
theorem test_decode_jal :
    decodeWord 0b0_0110100010_0_00010010_00001_1101111#32 = .ok (.jal 1#5 0x00012344#32) ∧
      0b0_0110100010_0_00010010_00001_1101111#32 &&& 0x0000007F#32 = 0x0000006F#32 := by decide
theorem test_decode_jalr :
    decodeWord 0b111111111101_00110_000_00001_1100111#32 = .ok (.jalr 1#5 6#5 0xFFFFFFFD#32) ∧
      0b111111111101_00110_000_00001_1100111#32 &&& 0x0000007F#32 = 0x00000067#32 := by decide
theorem test_decode_lui :
    decodeWord 0b00010010001101000101_00101_0110111#32 = .ok (.lui 5#5 0x12345000#32) ∧
      0b00010010001101000101_00101_0110111#32 &&& 0x0000007F#32 = 0x00000037#32 := by decide
theorem test_decode_auipc :
    decodeWord 0b10000000000000000000_00101_0010111#32 = .ok (.auipc 5#5 0x80000000#32) ∧
      0b10000000000000000000_00101_0010111#32 &&& 0x0000007F#32 = 0x00000017#32 := by decide
theorem test_decode_ecall :
    decodeWord 0b000000000000_00000_000_00000_1110011#32 = .ok .ecall ∧
      0b000000000000_00000_000_00000_1110011#32 &&& 0xFFF0007F#32 = 0x00000073#32 := by decide
theorem test_decode_ebreak :
    decodeWord 0b000000000001_00000_000_00000_1110011#32 = .ok .ebreak ∧
      0b000000000001_00000_000_00000_1110011#32 &&& 0xFFF0007F#32 = 0x00100073#32 := by decide

/-! ### Words that are no instruction, by name (rule R60, sections 1 (S6) and 2.2 to 2.7) -/

theorem test_reject_zero : decodeWord 0x00000000#32 = .error .undefinedOpcode := by decide
theorem test_reject_ones : decodeWord 0xFFFFFFFF#32 = .error .undefinedOpcode := by decide
theorem test_reject_fence : decodeWord 0x0FF0000F#32 = .error .undefinedOpcode := by decide
theorem test_reject_compressed : decodeWord 0x0000A001#32 = .error .undefinedOpcode := by decide
theorem test_reject_slli_high : decodeWord 0x40431293#32 = .error .undefinedShiftImmediate := by decide
theorem test_reject_srli_high : decodeWord 0x60435293#32 = .error .undefinedShiftImmediate := by decide
theorem test_reject_mul : decodeWord 0x027302B3#32 = .error .undefinedRegisterOp := by decide
theorem test_reject_op_20_7 : decodeWord 0x407372B3#32 = .error .undefinedRegisterOp := by decide
theorem test_reject_load_3 : decodeWord 0x00833283#32 = .error .undefinedLoad := by decide
theorem test_reject_store_7 : decodeWord 0x00737423#32 = .error .undefinedStore := by decide
theorem test_reject_branch_2 : decodeWord 0x00732863#32 = .error .undefinedBranch := by decide
theorem test_reject_mret : decodeWord 0x30200073#32 = .error .undefinedSystem := by decide
theorem test_reject_imm_minus_1 : decodeWord 0xFFF00073#32 = .error .undefinedSystem := by decide
theorem test_reject_short : decodeBytes [0x13#8, 0x00#8, 0x00#8] = .error .tooFewBytes := by decide

/-! ### Fields that are not examined (rule R59, decision D3; sections 2.6 and 2.7) -/

theorem test_decode_jalr_funct3 : decodeWord 0x00431367#32 = .ok (.jalr 6#5 6#5 4#32) := by decide
theorem test_decode_ecall_fields : decodeWord 0x00009073#32 = .ok .ecall := by decide
theorem test_decode_ebreak_rd : decodeWord 0x001002F3#32 = .ok .ebreak := by decide

/-! ### Register-immediate ALU (section 2.2) -/

theorem test_addi_wraps :
    wrote (vec 0x7FF30293#32 [(6#5, 0xFFFFFFFF#32)] 0 []) 5#5 0x000007FE#32 0x00000104#32 = true := by decide
theorem test_addi_x0_discards :
    moved (vec 0x00530013#32 [(6#5, 0x00000007#32)] 0 []) 0x00000104#32 = true := by decide
theorem test_slti_signed :
    wrote (vec 0xFFF32293#32 [(6#5, 0x80000010#32)] 0 []) 5#5 0x00000001#32 0x00000104#32 = true := by decide
theorem test_slti_equal :
    wrote (vec 0xFFF32293#32 [(6#5, 0xFFFFFFFF#32)] 0 []) 5#5 0x00000000#32 0x00000104#32 = true := by decide
theorem test_sltiu_sign_extends_first :
    wrote (vec 0xFFF33293#32 [(6#5, 0x80000010#32)] 0 []) 5#5 0x00000001#32 0x00000104#32 = true := by decide
theorem test_sltiu_large :
    wrote (vec 0x00133293#32 [(6#5, 0x80000010#32)] 0 []) 5#5 0x00000000#32 0x00000104#32 = true := by decide
theorem test_xori_not :
    wrote (vec 0xFFF34293#32 [(6#5, 0x80000010#32)] 0 []) 5#5 0x7FFFFFEF#32 0x00000104#32 = true := by decide
theorem test_ori_sign_extends :
    wrote (vec 0x80036293#32 [(6#5, 0x00000001#32)] 0 []) 5#5 0xFFFFF801#32 0x00000104#32 = true := by decide
theorem test_andi_mask :
    wrote (vec 0xF0037293#32 [(6#5, 0x80000010#32)] 0 []) 5#5 0x80000000#32 0x00000104#32 = true := by decide
theorem test_slli_31 :
    wrote (vec 0x01F31293#32 [(6#5, 0x00000003#32)] 0 []) 5#5 0x80000000#32 0x00000104#32 = true := by decide
theorem test_slli_0 :
    wrote (vec 0x00031293#32 [(6#5, 0x80000010#32)] 0 []) 5#5 0x80000010#32 0x00000104#32 = true := by decide
theorem test_srli_zero_fill :
    wrote (vec 0x00435293#32 [(6#5, 0x80000010#32)] 0 []) 5#5 0x08000001#32 0x00000104#32 = true := by decide
theorem test_srai_sign_fill :
    wrote (vec 0x40435293#32 [(6#5, 0x80000010#32)] 0 []) 5#5 0xF8000001#32 0x00000104#32 = true := by decide
theorem test_srai_31_positive :
    wrote (vec 0x41F35293#32 [(6#5, 0x7FFFFFFF#32)] 0 []) 5#5 0x00000000#32 0x00000104#32 = true := by decide

/-! ### Register-register ALU (section 2.3) -/

theorem test_add_wraps :
    wrote (vec 0x007302B3#32 [(6#5, 0xFFFFFFFF#32), (7#5, 0x00000001#32)] 0 []) 5#5 0x00000000#32 0x00000104#32 = true := by decide
theorem test_add_same_register :
    wrote (vec 0x005282B3#32 [(5#5, 0x40000001#32)] 0 []) 5#5 0x80000002#32 0x00000104#32 = true := by decide
theorem test_sub_wraps :
    wrote (vec 0x407302B3#32 [(6#5, 0x00000000#32), (7#5, 0x00000001#32)] 0 []) 5#5 0xFFFFFFFF#32 0x00000104#32 = true := by decide
theorem test_sll_amount_low_five :
    wrote (vec 0x007312B3#32 [(6#5, 0x80000010#32), (7#5, 0x00000024#32)] 0 []) 5#5 0x00000100#32 0x00000104#32 = true := by decide
theorem test_sll_amount_32_is_0 :
    wrote (vec 0x007312B3#32 [(6#5, 0x00000001#32), (7#5, 0x00000020#32)] 0 []) 5#5 0x00000001#32 0x00000104#32 = true := by decide
theorem test_slt_extremes :
    wrote (vec 0x007322B3#32 [(6#5, 0x80000000#32), (7#5, 0x7FFFFFFF#32)] 0 []) 5#5 0x00000001#32 0x00000104#32 = true := by decide
theorem test_slt_equal :
    wrote (vec 0x007322B3#32 [(6#5, 0x00000005#32), (7#5, 0x00000005#32)] 0 []) 5#5 0x00000000#32 0x00000104#32 = true := by decide
theorem test_sltu_large :
    wrote (vec 0x007332B3#32 [(6#5, 0x80000010#32), (7#5, 0x00000024#32)] 0 []) 5#5 0x00000000#32 0x00000104#32 = true := by decide
theorem test_sltu_small :
    wrote (vec 0x007332B3#32 [(6#5, 0x00000024#32), (7#5, 0x80000010#32)] 0 []) 5#5 0x00000001#32 0x00000104#32 = true := by decide
theorem test_xor :
    wrote (vec 0x007342B3#32 [(6#5, 0x80000010#32), (7#5, 0x00000024#32)] 0 []) 5#5 0x80000034#32 0x00000104#32 = true := by decide
theorem test_srl_zero_fill :
    wrote (vec 0x007352B3#32 [(6#5, 0x80000010#32), (7#5, 0x00000024#32)] 0 []) 5#5 0x08000001#32 0x00000104#32 = true := by decide
theorem test_srl_amount_32_is_0 :
    wrote (vec 0x007352B3#32 [(6#5, 0x80000010#32), (7#5, 0x00000020#32)] 0 []) 5#5 0x80000010#32 0x00000104#32 = true := by decide
theorem test_sra_amount_31 :
    wrote (vec 0x407352B3#32 [(6#5, 0x80000010#32), (7#5, 0x0000003F#32)] 0 []) 5#5 0xFFFFFFFF#32 0x00000104#32 = true := by decide
theorem test_sra_positive :
    wrote (vec 0x407352B3#32 [(6#5, 0x7FFFFFFF#32), (7#5, 0x0000001F#32)] 0 []) 5#5 0x00000000#32 0x00000104#32 = true := by decide
theorem test_or :
    wrote (vec 0x007362B3#32 [(6#5, 0x80000010#32), (7#5, 0x00000024#32)] 0 []) 5#5 0x80000034#32 0x00000104#32 = true := by decide
theorem test_and :
    wrote (vec 0x007372B3#32 [(6#5, 0xFFFF00FF#32), (7#5, 0x0F0F0F0F#32)] 0 []) 5#5 0x0F0F000F#32 0x00000104#32 = true := by decide

/-! ### Loads and stores (sections 1 (S5) and 2.4) -/

theorem test_lb_sign_extends :
    wrote (vec 0x00830283#32 [(6#5, 0x00002000#32)] 0x2008 [0x80#8, 0x91#8, 0xA2#8, 0xB3#8]) 5#5 0xFFFFFF80#32 0x00000104#32 = true := by decide
theorem test_lbu_highest_byte :
    wrote (vec 0x00B34283#32 [(6#5, 0x00002000#32)] 0x2008 [0x80#8, 0x91#8, 0xA2#8, 0xB3#8]) 5#5 0x000000B3#32 0x00000104#32 = true := by decide
theorem test_lh_misaligned :
    wrote (vec 0x00931283#32 [(6#5, 0x00002000#32)] 0x2008 [0x80#8, 0x91#8, 0xA2#8, 0xB3#8]) 5#5 0xFFFFA291#32 0x00000104#32 = true := by decide
theorem test_lhu_high_half :
    wrote (vec 0x00A35283#32 [(6#5, 0x00002000#32)] 0x2008 [0x80#8, 0x91#8, 0xA2#8, 0xB3#8]) 5#5 0x0000B3A2#32 0x00000104#32 = true := by decide
theorem test_lw_misaligned :
    wrote (vec 0x00932283#32 [(6#5, 0x00002000#32)] 0x2008 [0x80#8, 0x91#8, 0xA2#8, 0xB3#8, 0xC4#8]) 5#5 0xC4B3A291#32 0x00000104#32 = true := by decide
theorem test_lw_address_from_old_rd :
    wrote (vec 0x0002A283#32 [(5#5, 0x00002008#32)] 0x2008 [0x80#8, 0x91#8, 0xA2#8, 0xB3#8]) 5#5 0xB3A29180#32 0x00000104#32 = true := by decide
theorem test_sb_low_byte :
    stored (vec 0x00730423#32 [(6#5, 0x00002000#32), (7#5, 0x11223344#32)] 0x2008 [0x80#8, 0x91#8, 0xA2#8, 0xB3#8]) 0x2008 [0x44#8] 0x00000104#32 = true := by decide
theorem test_sh_misaligned :
    stored (vec 0x007314A3#32 [(6#5, 0x00002000#32), (7#5, 0x11223344#32)] 0x2008 [0x80#8, 0x91#8, 0xA2#8, 0xB3#8]) 0x2009 [0x44#8, 0x33#8] 0x00000104#32 = true := by decide
theorem test_sw_negative_offset :
    stored (vec 0xFE732E23#32 [(6#5, 0x0000200C#32), (7#5, 0xDEADBEEF#32)] 0x2008 [0x80#8, 0x91#8, 0xA2#8, 0xB3#8]) 0x2008 [0xEF#8, 0xBE#8, 0xAD#8, 0xDE#8] 0x00000104#32 = true := by decide
theorem test_sw_rs2_is_rs1 :
    stored (vec 0x00632423#32 [(6#5, 0x00002000#32)] 0x2008 [0x80#8, 0x91#8, 0xA2#8, 0xB3#8]) 0x2008 [0x00#8, 0x20#8, 0x00#8, 0x00#8] 0x00000104#32 = true := by decide

/-! ### Branches (section 2.5) -/

theorem test_beq_equal_taken :
    moved (vec 0x00730863#32 [(6#5, 0x00000024#32), (7#5, 0x00000024#32)] 0 []) 0x00000110#32 = true := by decide
theorem test_beq_unequal :
    moved (vec 0x00730863#32 [(6#5, 0x80000010#32), (7#5, 0x00000024#32)] 0 []) 0x00000104#32 = true := by decide
theorem test_bne_unequal_taken :
    moved (vec 0x00731863#32 [(6#5, 0x80000010#32), (7#5, 0x00000024#32)] 0 []) 0x00000110#32 = true := by decide
theorem test_bne_equal :
    moved (vec 0x00731863#32 [(6#5, 0x00000024#32), (7#5, 0x00000024#32)] 0 []) 0x00000104#32 = true := by decide
theorem test_blt_signed_taken :
    moved (vec 0x00734863#32 [(6#5, 0x80000010#32), (7#5, 0x00000024#32)] 0 []) 0x00000110#32 = true := by decide
theorem test_blt_equal :
    moved (vec 0x00734863#32 [(6#5, 0x00000024#32), (7#5, 0x00000024#32)] 0 []) 0x00000104#32 = true := by decide
theorem test_bge_swapped_taken :
    moved (vec 0x00735863#32 [(6#5, 0x00000024#32), (7#5, 0x80000010#32)] 0 []) 0x00000110#32 = true := by decide
theorem test_bge_signed :
    moved (vec 0x00735863#32 [(6#5, 0x80000010#32), (7#5, 0x00000024#32)] 0 []) 0x00000104#32 = true := by decide
theorem test_bltu_swapped_taken :
    moved (vec 0x00736863#32 [(6#5, 0x00000024#32), (7#5, 0x80000010#32)] 0 []) 0x00000110#32 = true := by decide
theorem test_bltu_unsigned :
    moved (vec 0x00736863#32 [(6#5, 0x80000010#32), (7#5, 0x00000024#32)] 0 []) 0x00000104#32 = true := by decide
theorem test_bgeu_unsigned_taken :
    moved (vec 0x00737863#32 [(6#5, 0x80000010#32), (7#5, 0x00000024#32)] 0 []) 0x00000110#32 = true := by decide
theorem test_bgeu_swapped :
    moved (vec 0x00737863#32 [(6#5, 0x00000024#32), (7#5, 0x80000010#32)] 0 []) 0x00000104#32 = true := by decide

/-! ### Jumps and upper immediates (section 2.6) -/

theorem test_jal_links : wrote (vec 0x344120EF#32 [] 0 []) 1#5 0x00000104#32 0x00012444#32 = true := by decide
theorem test_jal_x0_backward : moved (vec 0xFF9FF06F#32 [] 0 []) 0x000000F8#32 = true := by decide
theorem test_jalr_clears_low_bit :
    wrote (vec 0xFFD300E7#32 [(6#5, 0x00002000#32)] 0 []) 1#5 0x00000104#32 0x00001FFC#32 = true := by decide
theorem test_jalr_rd_is_rs1 :
    wrote (vec 0x00030367#32 [(6#5, 0x00002000#32)] 0 []) 6#5 0x00000104#32 0x00002000#32 = true := by decide
theorem test_lui : wrote (vec 0xFFFFF2B7#32 [] 0 []) 5#5 0xFFFFF000#32 0x00000104#32 = true := by decide
theorem test_lui_x0_discards : moved (vec 0x12345037#32 [] 0 []) 0x00000104#32 = true := by decide
theorem test_auipc_own_address : wrote (vec 0x00001297#32 [] 0 []) 5#5 0x00001100#32 0x00000104#32 = true := by decide

/-! ### System class (section 2.7) -/

theorem test_ecall_exit_whole_word :
    ended (vec 0x00000073#32 [(10#5, 0xFFFFFFFF#32), (17#5, 0x00000001#32)] 0 []) (.exited 0xFFFFFFFF#32) = true := by decide
theorem test_ecall_write :
    emitted (vec 0x00000073#32 [(11#5, 0x00002000#32), (12#5, 0x00000003#32), (17#5, 0x00000004#32)] 0x2000 [0x68#8, 0x69#8, 0x0A#8]) [0x68#8, 0x69#8, 0x0A#8] 0x00000104#32 .running = true := by decide
theorem test_ebreak : ended (vec 0x00100073#32 [] 0 []) (.fatal .breakpoint (.atPc 0x00000100#32)) = true := by decide

/-! ### The fetch and the step (sections 1 (S6) and 2.8) -/

theorem test_step_unsupported :
    ended (vec 0x0000100F#32 [] 0 []) (.fatal .unsupportedInstruction (.word 0x0000100F#32)) = true := by decide
theorem test_step_last_word : moved (vecAt 0x000FFFFC#32 0x00000013#32 []) 0x00100000#32 = true := by decide
theorem test_step_fetch_past_end :
    ended (vecAt 0x00100000#32 0x00000013#32 []) (.fatal .outOfBounds (.access 0x100000 4)) = true := by decide
theorem test_step_misaligned_pc :
    wrote (vecAt 0x00000102#32 0x00500093#32 []) 1#5 5#32 0x00000106#32 = true := by decide

/-! ### Reset (section 2.9) and the host's placing of a word -/

/-- The arguments of the second row of section 2.9, with 0xEE in every MEM_INIT byte and 7 in every REG_INIT word. -/
def gapArgs : ResetArgs :=
  { memSize := 16, image := [0x73#8, 0x00#8, 0x10#8, 0x00#8], base := 32#32, regInit := Vector.replicate 31 7#32,
    memInit := fun _ => 0xEE#8 }

theorem test_reset_gap :
    (match State.resetWith gapArgs with
     | .next s => s.memLen == 36 && s.pc == 32#32 && s.byte 0 == 0xEE#8 && s.byte 15 == 0xEE#8 && s.byte 16 == 0#8 &&
         s.byte 31 == 0#8 && s.byte 32 == 0x73#8 && s.byte 34 == 0x10#8 && s.reg 0#5 == 0#32 && s.reg 1#5 == 7#32 &&
         s.reg 31#5 == 7#32 && s.run == .running && s.out == []
     | .fault _ => false
     | .refused _ => false) = true := by decide

theorem test_reset_refused :
    (match State.resetWith { gapArgs with base := 0xFFFFFFFC#32, image := List.replicate 8 0#8 } with
     | .next _ => false
     | .fault _ => false
     | .refused r => r == .resetArguments) = true := by decide

theorem test_table_word : decodeTableWord 32 0x407302B3 = some (.sub 5#5 6#5 7#5) := by decide

theorem test_table_word_rejects : decodeTableWord 32 0x027302B3 = none := by decide

theorem test_placed_word_runs_first :
    wrote (State.reset.withFetchWord 32 0xFFF00293) 5#5 0xFFFFFFFF#32 0x00000004#32 = true := by decide
/-! ### Witnesses: for every statement of Obligations.lean with hypotheses, concrete values that meet them, one for each
clause and at the bounds of its range. The RowReads clauses are met by the words of the decoding tests above. -/

/-- The execution answers a next state that passes the question. -/
def nextIs (o : Host.Outcome State Fault Refusal) (q : State → Bool) : Bool :=
  match o with
  | .next t => q t
  | .fault _ => false
  | .refused _ => false

/-- x6 = a, x7 = v, call registers zero, no byte of memory listed. -/
def regs67 (a v : Word) : State := (State.reset.setReg 6#5 a).setReg 7#5 v

/-- An environment call's registers: the number, `a1`, `a2`. -/
def call (n a1 a2 : Word) : State := ((State.reset.setReg 17#5 n).setReg 11#5 a1).setReg 12#5 a2

/-- Section 2.1, one word of each class. -/
theorem test_witness_DecoderExtractsSevenValues :
    decodeFields 0xFFC32283#32 = ⟨0x03#7, 5#5, 2#3, 6#5, 28#5, 0x7F#7, 0xFFFFFFFC#32⟩ ∧
    decodeFields 0x40435293#32 = ⟨0x13#7, 5#5, 5#3, 6#5, 4#5, 0x20#7, 0x00000404#32⟩ ∧
    decodeFields 0xFFD300E7#32 = ⟨0x67#7, 1#5, 0#3, 6#5, 29#5, 0x7F#7, 0xFFFFFFFD#32⟩ ∧
    decodeFields 0x30200073#32 = ⟨0x73#7, 0#5, 0#3, 0#5, 2#5, 0x18#7, 0x00000302#32⟩ ∧
    decodeFields 0x80732023#32 = ⟨0x23#7, 0#5, 2#3, 6#5, 7#5, 0x40#7, 0xFFFFF800#32⟩ ∧
    decodeFields 0xFE730CE3#32 = ⟨0x63#7, 25#5, 0#3, 6#5, 7#5, 0x7F#7, 0xFFFFFFF8#32⟩ ∧
    decodeFields 0xFFFFF2B7#32 = ⟨0x37#7, 5#5, 7#3, 31#5, 31#5, 0x7F#7, 0xFFFFF000#32⟩ ∧
    decodeFields 0x80000297#32 = ⟨0x17#7, 5#5, 0#3, 0#5, 0#5, 0x40#7, 0x80000000#32⟩ ∧
    decodeFields 0xFF9FF06F#32 = ⟨0x6F#7, 0#5, 7#3, 31#5, 25#5, 0x7F#7, 0xFFFFFFF8#32⟩ ∧
    decodeFields 0x027302B3#32 = ⟨0x33#7, 5#5, 0#3, 6#5, 7#5, 0x01#7, 0x00000000#32⟩ ∧
    decodeFields 0xFFFFFFFF#32 = ⟨0x7F#7, 31#5, 7#3, 31#5, 31#5, 0x7F#7, 0x00000000#32⟩ := by decide

/-- Bits 0, 11 and 31, where the clauses meet (sections 2.1: bit 11 of B from word bit 7, of J from word bit 20). -/
theorem test_witness_ImmediateBitsComeFromTheirPositions :
    immB 0x007300E3#32 = 0x00000800#32 ∧ immJ 0x001000EF#32 = 0x00000800#32 ∧
    (immI 0xFFF08093#32).getLsbD 31 = true ∧ (immI 0x7FF30293#32).getLsbD 11 = false ∧
    (immS 0x7E732FA3#32).getLsbD 0 = true ∧ (immS 0x7E732FA3#32).getLsbD 11 = false ∧
    (immU 0xFFFFF2B7#32).getLsbD 11 = false ∧ (immU 0xFFFFF2B7#32).getLsbD 12 = true ∧
    (immJ 0x7FFFF0EF#32).getLsbD 19 = true ∧ (immJ 0x7FFFF0EF#32).getLsbD 20 = false := by decide

theorem test_witness_WordIsTheRowItsFixedBitsName :
    decodeWord 0x00431367#32 = .ok (.jalr 6#5 6#5 4#32) ∧
    0x00431367#32 &&& (Instr.jalr 0#5 0#5 0#32).rowMask = (Instr.jalr 0#5 0#5 0#32).rowMatch ∧
    0x00431367#32 &&& (Instr.jalr 6#5 6#5 4#32).rowMask = (Instr.jalr 6#5 6#5 4#32).rowMatch := by decide

theorem test_witness_DecodedInstructionIsWellFormed :
    decodeWord 0x80730063#32 = .ok (.beq 6#5 7#5 0xFFFFF000#32) := by decide

theorem test_witness_DecodeOfEncodeIsTheInstruction :
    Instr.wellFormed (.addi 5#5 6#5 0xFFFFF800#32) = true ∧ Instr.wellFormed (.addi 5#5 6#5 0x000007FF#32) = true ∧
    Instr.wellFormed (.sw 6#5 7#5 0xFFFFF800#32) = true ∧ Instr.wellFormed (.beq 6#5 7#5 0x00000FFE#32) = true ∧
    Instr.wellFormed (.bgeu 6#5 7#5 0xFFFFF000#32) = true ∧ Instr.wellFormed (.jal 1#5 0x000FFFFE#32) = true ∧
    Instr.wellFormed (.jal 1#5 0xFFF00000#32) = true ∧ Instr.wellFormed (.lui 5#5 0xFFFFF000#32) = true := by decide

theorem test_witness_EncodeOfDecodeIsTheWord :
    decodeWord 0x001002F3#32 = .ok .ebreak ∧ decodeWord 0x00431367#32 = .ok (.jalr 6#5 6#5 4#32) := by decide

/-- The last byte of memory, and the first past it (section 1, S5). -/
theorem test_witness_LbAndLbuLoadOneByte :
    (0xFFFFF = ((State.reset.reg 0#5).toNat + 0xFFFFF) % 2 ^ 32 ∧ 0xFFFFF < State.reset.memLen) ∧
    (0x100000 = (((regs67 0x00100000#32 0#32).reg 6#5).toNat + (0#32).toNat) % 2 ^ 32 ∧
      (regs67 0x00100000#32 0#32).memLen ≤ 0x100000) := by decide

/-- The last half-word of memory, and one byte too far. -/
theorem test_witness_LhAndLhuLoadTwoBytes :
    (0xFFFFE = (((regs67 0x000FFFFE#32 0#32).reg 6#5).toNat + (0#32).toNat) % 2 ^ 32 ∧
      0xFFFFE + 2 ≤ (regs67 0x000FFFFE#32 0#32).memLen) ∧
    (0xFFFFF = (((regs67 0x000FFFFE#32 0#32).reg 6#5).toNat + (1#32).toNat) % 2 ^ 32 ∧
      (regs67 0x000FFFFE#32 0#32).memLen < 0xFFFFF + 2) := by decide

/-- The last word of memory; one byte too far; an address near 2^32. -/
theorem test_witness_LwLoadsFourBytes :
    (0xFFFFC = (((regs67 0x00100000#32 0#32).reg 6#5).toNat + (0xFFFFFFFC#32).toNat) % 2 ^ 32 ∧
      0xFFFFC + 4 ≤ (regs67 0x00100000#32 0#32).memLen) ∧
    (0xFFFFD = (((regs67 0x00100000#32 0#32).reg 6#5).toNat + (0xFFFFFFFD#32).toNat) % 2 ^ 32 ∧
      (regs67 0x00100000#32 0#32).memLen < 0xFFFFD + 4) ∧
    (0xFFFFFFFE = (((regs67 0xFFFFFFFE#32 0#32).reg 6#5).toNat + (0#32).toNat) % 2 ^ 32 ∧
      (regs67 0xFFFFFFFE#32 0#32).memLen < 0xFFFFFFFE + 4) := by decide

/-- The last byte, half-word and word of memory, and one byte too far for each. -/
theorem test_witness_SbShSwStoreTheLowBytes :
    State.reset.mem.wf ∧
    ((State.reset.effAddr 0#5 0x000FFFFF#32).toNat = 0xFFFFF ∧ 0xFFFFF + 1 ≤ State.reset.memLen) ∧
    ((State.reset.effAddr 0#5 0x000FFFFE#32).toNat = 0xFFFFE ∧ 0xFFFFE + 2 ≤ State.reset.memLen) ∧
    ((State.reset.effAddr 0#5 0x000FFFFC#32).toNat = 0xFFFFC ∧ 0xFFFFC + 4 ≤ State.reset.memLen) ∧
    ((State.reset.effAddr 0#5 0x00100000#32).toNat = 0x100000 ∧ State.reset.memLen < 0x100000 + 1) ∧
    ((State.reset.effAddr 0#5 0x000FFFFF#32).toNat = 0xFFFFF ∧ State.reset.memLen < 0xFFFFF + 2) ∧
    ((State.reset.effAddr 0#5 0x000FFFFD#32).toNat = 0xFFFFD ∧ State.reset.memLen < 0xFFFFD + 4) := by decide

theorem test_witness_ComplementaryBranchesSplit :
    (Instr.bltu 6#5 7#5 16#32, Instr.bgeu 6#5 7#5 16#32) ∈
      [(Instr.blt 6#5 7#5 16#32, Instr.bge 6#5 7#5 16#32), (Instr.bltu 6#5 7#5 16#32, Instr.bgeu 6#5 7#5 16#32),
       (Instr.beq 6#5 7#5 16#32, Instr.bne 6#5 7#5 16#32)] := by decide

/-- The immediates 0, 1, 2 and -1, the first two with unexamined fields set (section 2.7). -/
theorem test_witness_SystemClassSelectsOnTheImmediate :
    (opcodeField 0x00009073#32 = 0x73#7 ∧ immI 0x00009073#32 = 0#32) ∧
    (opcodeField 0x001002F3#32 = 0x73#7 ∧ immI 0x001002F3#32 = 1#32) ∧
    (opcodeField 0x00200073#32 = 0x73#7 ∧ immI 0x00200073#32 ≠ 0#32 ∧ immI 0x00200073#32 ≠ 1#32) ∧
    (opcodeField 0xFFF00073#32 = 0x73#7 ∧ immI 0xFFF00073#32 ≠ 0#32 ∧ immI 0xFFF00073#32 ≠ 1#32) := by decide

theorem test_witness_ExitCallEndsTheRun : (call 1#32 0#32 0#32).reg 17#5 = 1#32 := by decide

/-- A count of zero at a wild address, and a buffer that ends with the last byte of memory. -/
theorem test_witness_WriteCallEmitsTheBuffer :
    ((call 4#32 0xFFFFFFFF#32 0#32).reg 17#5 = 4#32 ∧ (call 4#32 0xFFFFFFFF#32 0#32).bufferInBounds) ∧
    ((call 4#32 0x000FFFFE#32 2#32).reg 17#5 = 4#32 ∧ (call 4#32 0x000FFFFE#32 2#32).bufferInBounds) := by
  unfold State.bufferInBounds
  decide

/-- A buffer that ends one byte past memory, and one that begins there. -/
theorem test_witness_WriteCallOutOfBoundsStops :
    ((call 4#32 0x000FFFFE#32 3#32).reg 17#5 = 4#32 ∧ ¬ (call 4#32 0x000FFFFE#32 3#32).bufferInBounds) ∧
    ((call 4#32 0x00100000#32 1#32).reg 17#5 = 4#32 ∧ ¬ (call 4#32 0x00100000#32 1#32).bufferInBounds) := by
  unfold State.bufferInBounds
  decide

theorem test_witness_OtherCallNumbersStop :
    ((call 0#32 0#32 0#32).reg 17#5 ≠ 1#32 ∧ (call 0#32 0#32 0#32).reg 17#5 ≠ 4#32) ∧
    ((call 0x101#32 0#32 0#32).reg 17#5 ≠ 1#32 ∧ (call 0x101#32 0#32 0#32).reg 17#5 ≠ 4#32) := by decide

/-- For the three statements about MemRead and MemWrite: the last place of each width, and one byte too far. -/
theorem test_witness_MemReadMemWrite :
    State.reset.mem.wf ∧ 0xFFFFF + Width.byte.bytes ≤ State.reset.memLen ∧ 0xFFFFE + Width.half.bytes ≤ State.reset.memLen ∧
    0xFFFFC + Width.word.bytes ≤ State.reset.memLen ∧ State.reset.memLen < 0x100000 + Width.byte.bytes ∧
    State.reset.memLen < 0xFFFFF + Width.half.bytes ∧ State.reset.memLen < 0xFFFFD + Width.word.bytes := by decide

/-- An instruction that completes with a write to x0, and one that stops; reset; a step. -/
theorem test_witness_RegisterZeroReadsZero :
    nextIs (exec (.addi 0#5 6#5 5#32) (regs67 7#32 0#32)) (fun t => t.run == .running) = true ∧
    nextIs (exec .ebreak State.reset) (fun t => t.run != .running) = true ∧
    nextIs (State.resetWith gapArgs) (fun _ => true) = true ∧
    State.reset.reg 0#5 = 0#32 ∧ nextIs (step State.reset) (fun _ => true) = true := by decide

theorem test_witness_OnlyTheDestinationRegisterChanges :
    nextIs (exec (.addi 5#5 6#5 1#32) (regs67 7#32 0#32)) (fun _ => true) = true ∧ (6#5 : RegIdx) ≠ 0#5 ∧
    Instr.dest (.addi 5#5 6#5 1#32) ≠ some 6#5 := by decide

/-- Two states that differ in x7 alone; the instruction reads x6. -/
theorem test_witness_OutcomeDependsOnlyOnTheSources :
    nextIs (exec (.addi 5#5 6#5 1#32) (regs67 7#32 0#32)) (fun t => t.run == .running) = true ∧
    nextIs (exec (.addi 5#5 6#5 1#32) (regs67 7#32 9#32)) (fun _ => true) = true ∧
    (∀ r ∈ Instr.sources (.addi 5#5 6#5 1#32), (regs67 7#32 9#32).reg r = (regs67 7#32 0#32).reg r) ∧
    (regs67 7#32 9#32).pc = (regs67 7#32 0#32).pc ∧ (regs67 7#32 9#32).mem = (regs67 7#32 0#32).mem ∧
    (regs67 7#32 9#32).memLen = (regs67 7#32 0#32).memLen ∧ (regs67 7#32 9#32).run = (regs67 7#32 0#32).run ∧
    (regs67 7#32 9#32).out = (regs67 7#32 0#32).out ∧ Instr.dest (.addi 5#5 6#5 1#32) = some 5#5 := by decide

/-- A store and an instruction that is none. -/
theorem test_witness_OnlyStoresChangeMemory :
    (regs67 0x2000#32 1#32).mem.wf ∧
    (nextIs (exec (.sb 6#5 7#5 8#32) (regs67 0x2000#32 1#32)) (fun _ => true) = true ∧
      Instr.access (.sb 6#5 7#5 8#32) (regs67 0x2000#32 1#32) = some (0x2008, 1)) ∧
    nextIs (exec (.lb 5#5 6#5 8#32) (regs67 0x2000#32 1#32)) (fun _ => true) = true := by decide

theorem test_witness_OnlyStoresChangeMemory_kinds :
    Instr.isStore (.sb 6#5 7#5 8#32) ∧ ¬ Instr.isStore (.lb 5#5 6#5 8#32) := ⟨trivial, id⟩

theorem test_witness_OnlyTheWriteCallEmits :
    nextIs (exec .ecall (call 4#32 0x2000#32 1#32)) (fun t => t.out != (call 4#32 0x2000#32 1#32).out) = true := by decide

/-- A jump, an indirect jump, a taken and an untaken branch and a plain instruction, each completing. -/
theorem test_witness_PcSequencerFollowsTheInstruction :
    nextIs (exec (.jal 1#5 16#32) State.reset) (fun t => t.run == .running) = true ∧
    nextIs (exec (.jalr 1#5 6#5 4#32) State.reset) (fun t => t.run == .running) = true ∧
    nextIs (exec (.blt 6#5 7#5 16#32) (regs67 0x80000000#32 0x7FFFFFFF#32)) (fun t => t.run == .running) = true ∧
    nextIs (exec (.addi 5#5 6#5 1#32) State.reset) (fun t => t.run == .running) = true ∧
    ((regs67 0x80000000#32 0x7FFFFFFF#32).reg 6#5).toInt < ((regs67 0x80000000#32 0x7FFFFFFF#32).reg 7#5).toInt := by
  decide

/-- The last word of memory. -/
theorem test_witness_StepExecutesTheDecodedInstruction :
    let s := vecAt 0x000FFFFC#32 0x00500093#32 []
    s.run = .running ∧ s.pc.toNat + 4 ≤ s.memLen ∧
    decodeBytes [s.byte s.pc.toNat, s.byte (s.pc.toNat + 1), s.byte (s.pc.toNat + 2), s.byte (s.pc.toNat + 3)]
      = .ok (.addi 1#5 0#5 5#32, []) := by decide

/-- One byte too far. -/
theorem test_witness_FetchOutOfBoundsStops :
    let s := vecAt 0x000FFFFD#32 0x00500093#32 []
    s.run = .running ∧ ¬ s.pc.toNat + 4 ≤ s.memLen := by decide

theorem test_witness_UnsupportedInstructionStops :
    let s := vecAt 0x00000100#32 0x027302B3#32 []
    s.run = .running ∧ s.pc.toNat + 4 ≤ s.memLen ∧ decodeWord s.wordAtPc = .error .undefinedRegisterOp := by decide

theorem test_witness_StoppedMachineTakesNoStep :
    (State.reset.exit 0#32).run ≠ .running ∧ (State.reset.raise .breakpoint (.atPc 0#32)).run ≠ .running := by decide

/-- For StepCompletesOrStopsWhole, EachStopHasItsCause, OutputIsNotRead, MemoryLengthIsConstantAndOutputGrows: a step
that completes, and one for each way of stopping. -/
theorem test_witness_steps :
    nextIs (step (vec 0x00500093#32 [] 0 [])) (fun t => t.run == .running) = true ∧
    nextIs (step (vec 0x00000073#32 [(17#5, 1#32), (10#5, 5#32)] 0 [])) (fun t => t.run == .exited 5#32) = true ∧
    nextIs (step (vec 0x00100073#32 [] 0 [])) (fun t => t.run == .fatal .breakpoint (.atPc 0x100#32)) = true ∧
    nextIs (step (vec 0x00000073#32 [(17#5, 0x5D#32)] 0 []))
      (fun t => t.run == .fatal .unsupportedSyscall (.callNumber 0x5D#32)) = true ∧
    nextIs (step (vec 0x00200073#32 [] 0 []))
      (fun t => t.run == .fatal .unsupportedInstruction (.word 0x00200073#32)) = true ∧
    nextIs (step (vecAt 0xFFFFFFFE#32 0x00000013#32 []))
      (fun t => t.run == .fatal .outOfBounds (.access 0xFFFFFFFE 4)) = true ∧
    nextIs (step (vec 0x00032003#32 [(6#5, 0x00100000#32)] 0 []))
      (fun t => t.run == .fatal .outOfBounds (.access 0x100000 4)) = true ∧
    nextIs (step (vec 0x00000073#32 [(17#5, 4#32), (11#5, 0x00100000#32), (12#5, 1#32)] 0 []))
      (fun t => t.run == .fatal .outOfBounds (.access 0x100000 1)) = true := by decide

/-- Section 2.8: SW x7, 4(x6) at P with x6 = P. -/
theorem test_witness_NextFetchSeesTheStore :
    let s := vec 0x00732223#32 [(6#5, 0x100#32), (7#5, 0x00500093#32)] 0 []
    s.mem.wf ∧ s.run = .running ∧ s.effAddr 6#5 4#32 = s.pc + 4#32 ∧
    nextIs (exec (.sw 6#5 7#5 4#32) s) (fun t => t.run == .running) = true := by decide

theorem test_witness_StepKeepsTheInvariant :
    (vec 0x00732223#32 [(6#5, 0x100#32), (7#5, 1#32)] 0 []).Inv ∧
    nextIs (step (vec 0x00732223#32 [(6#5, 0x100#32), (7#5, 1#32)] 0 [])) (fun _ => true) = true :=
  ⟨⟨by decide, by decide, by decide, by decide⟩, by decide⟩

theorem test_witness_ResetWithAnyArgumentsMeetsTheInvariant :
    nextIs (State.resetWith gapArgs) (fun _ => true) = true := by decide

theorem test_witness_EvenPcStaysEven :
    let s := vec 0xFE730CE3#32 [] 0 []
    s.pc.toNat % 2 = 0 ∧ nextIs (step s) (fun _ => true) = true := by decide

/-- The first and last register, image byte, gap byte and MEM_INIT byte; arguments at the limit and past it. -/
theorem test_witness_ResetGivesEveryPieceItsValue :
    (gapArgs.memSize ≤ 2 ^ 32 ∧ gapArgs.base.toNat + gapArgs.image.length ≤ 2 ^ 32) ∧
    (0 < 31 ∧ 30 < 31 ∧ 0 < gapArgs.image.length ∧ 3 < gapArgs.image.length) ∧
    (gapArgs.memSize ≤ 16 ∧ 16 < gapArgs.base.toNat ∧ gapArgs.memSize ≤ 31 ∧ 31 < gapArgs.base.toNat) ∧
    (0 < gapArgs.memSize ∧ 15 < gapArgs.memSize ∧ 15 < gapArgs.base.toNat) ∧
    (4 < gapArgs.memSize ∧ (0#32).toNat + gapArgs.image.length ≤ 4) ∧
    (0xFFFFFFFC#32).toNat + gapArgs.image.length ≤ 2 ^ 32 ∧
    ¬ (0xFFFFFFFD#32).toNat + gapArgs.image.length ≤ 2 ^ 32 := by decide

theorem test_witness_PlacedWordIsTheNextInstruction :
    State.reset.mem.wf ∧ decodeTableWord 32 0x00100073 = some .ebreak := by decide

end Sys2Proof.Tests
end

/-! SUPPORT and PROOFS. The statements about the state (spec/10_state.md): what a step keeps, which registers an
instruction changes and reads, the output stream, and reset.

The step invariants all follow from one reading of a step, `step_completes_or_stops`: it completes, after at most one
register write, one store in bounds and some output; or it stops and leaves the machine as it was. -/

namespace Sys2Proof.Machine

variable {s t u : State} {i : Instr}

/-! ### ECALL by its call number (rules R137 to R140) -/

theorem execEcall_exit (h : s.reg Config.a7 = Config.exitCall) : execEcall s = .next s.exitCall := if_pos h

theorem execEcall_write (h : s.reg Config.a7 = Config.writeCall) : execEcall s = .next s.writeCall := by
  rw [execEcall, if_neg (by rw [h]; decide), if_pos h]

theorem execEcall_other (h1 : s.reg Config.a7 ≠ Config.exitCall) (h4 : s.reg Config.a7 ≠ Config.writeCall) :
    execEcall s = .next (s.raise .unsupportedSyscall (.callNumber (s.reg Config.a7))) := by
  rw [execEcall, if_neg h1, if_neg h4]

/-! ### The step of a running machine, by what it fetches (rules R80 to R82) -/

theorem step_noFetch (hr : s.run = .running) (hf : s.fetch = none) :
    step s = .next (s.raiseOutOfBounds s.pc.toNat .word) := by
  simp only [step, hr, runningStep, hf]

theorem step_noInstr {w : Word} {r : DecodeReject} (hr : s.run = .running) (hf : s.fetch = some w)
    (hd : decodeWord w = .error r) : step s = .next (s.raise .unsupportedInstruction (.word w)) := by
  simp only [step, hr, runningStep, hf, execWord, hd]

theorem step_executed {w : Word} (hr : s.run = .running) (hf : s.fetch = some w) (hd : decodeWord w = .ok i) :
    step s = exec i s := by
  simp only [step, hr, runningStep, hf, execWord, hd]

/-! ### A step completes or stops (spec/40_step_and_dispatch.md rules R84 and R86) -/

/-- `u` is `s` as the instruction `i` has left it when it comes to complete. -/
structure BeforeCompletion (i : Instr) (s u : State) : Prop where
  regs   : ∀ r, i.dest ≠ some r → u.reg r = s.reg r
  mem    : u.mem = s.mem ∨ ∃ a n v, a + n ≤ s.memLen ∧ u.mem = s.mem.writeLE a n v
  memLen : u.memLen = s.memLen
  run    : u.run = s.run
  out    : s.out <+: u.out

/-- `t` is `s` with the run over and, at most, bytes appended to OUT. -/
structure StoppedFrom (s t : State) : Prop extends SameMachine s t where
  out : s.out <+: t.out
  run : t.run ≠ .running

theorem beforeCompletion_setReg {rd : RegIdx} (hd : i.dest = some rd) (s : State) (v : Word) :
    BeforeCompletion i s (s.setReg rd v) where
  regs r hr := reg_setReg_ne s rd r v (fun e => hr (e ▸ hd))
  mem := .inl rfl
  memLen := rfl
  run := rfl
  out := List.prefix_rfl

theorem beforeCompletion_self (i : Instr) (s : State) : BeforeCompletion i s s where
  regs _ _ := rfl
  mem := .inl rfl
  memLen := rfl
  run := rfl
  out := List.prefix_rfl

theorem beforeCompletion_writeLE {a n : Nat} (i : Instr) (v : Word) (hb : a + n ≤ s.memLen) :
    BeforeCompletion i s { s with mem := s.mem.writeLE a n v } where
  regs _ _ := rfl
  mem := .inr ⟨a, n, v, hb, rfl⟩
  memLen := rfl
  run := rfl
  out := List.prefix_rfl

theorem beforeCompletion_append (i : Instr) (s : State) (bs : List Byte) :
    BeforeCompletion i s { s with out := s.out ++ bs } where
  regs _ _ := rfl
  mem := .inl rfl
  memLen := rfl
  run := rfl
  out := List.prefix_append _ _

theorem stoppedFrom_raise (s : State) (c : Condition) (info : FatalInfo) : StoppedFrom s (s.raise c info) :=
  ⟨⟨rfl, rfl, rfl, rfl⟩, List.prefix_rfl, by simp⟩

theorem stoppedFrom_append_raise (s : State) (bs : List Byte) (c : Condition) (info : FatalInfo) :
    StoppedFrom s (({ s with out := s.out ++ bs } : State).raise c info) :=
  ⟨⟨rfl, rfl, rfl, rfl⟩, List.prefix_append _ _, by simp⟩

theorem stoppedFrom_exit (s : State) (status : Word) : StoppedFrom s (s.exit status) :=
  ⟨⟨rfl, rfl, rfl, rfl⟩, List.prefix_rfl, by simp⟩

theorem nextPc_of_isStore (h : i.isStore) (s : State) : nextPc i s = s.pcPlus4 := by
  cases i with
  | sb | sh | sw => rfl
  | _ => exact h.elim

/-- The eight effects of an instruction are two: it completes, or it stops and leaves the machine as it was. -/
theorem exec_completes_or_stops (h : exec i s = .next t) :
    (∃ u, BeforeCompletion i s u ∧ t = u.complete (nextPc i s)) ∨ StoppedFrom s t := by
  cases exec_effect h with
  | wrote rd v hd ht => exact .inl ⟨_, beforeCompletion_setReg hd s v, ht⟩
  | moved _ ht => exact .inl ⟨s, beforeCompletion_self i s, ht⟩
  | stored a w v hs _ hb ht =>
    exact .inl ⟨_, beforeCompletion_writeLE i v hb, by rw [nextPc_of_isStore hs, ht]⟩
  | outside _ _ _ _ ht => exact .inr (ht ▸ stoppedFrom_raise s _ _)
  | exited _ _ ht => exact .inr (ht ▸ stoppedFrom_exit s _)
  | wroteOut hi _ ht =>
    subst hi ht
    obtain ⟨bs, hc | ⟨a, hc⟩⟩ := writeCall_cases s
    · exact .inl ⟨_, beforeCompletion_append _ s bs, hc⟩
    · exact .inr (hc ▸ stoppedFrom_append_raise s bs _ _)
  | badCall _ _ _ ht => exact .inr (ht ▸ stoppedFrom_raise s _ _)
  | breakpoint _ ht => exact .inr (ht ▸ stoppedFrom_raise s _ _)

/-- A step completes the instruction it decoded, or stops. -/
theorem step_completes_or_stops (h : step s = .next t) :
    (∃ w i u, decodeWord w = .ok i ∧ BeforeCompletion i s u ∧ t = u.complete (nextPc i s)) ∨ StoppedFrom s t := by
  cases (step_effect h).2 with
  | noFetch _ ht => exact .inr (ht ▸ stoppedFrom_raise s _ _)
  | noInstr _ _ _ _ ht => exact .inr (ht ▸ stoppedFrom_raise s _ _)
  | executed w i _ hd he =>
    exact (exec_completes_or_stops he).imp_left fun ⟨u, hu, ht⟩ => ⟨w, i, u, hd, hu, ht⟩

theorem StoppedFrom.reg (h : StoppedFrom s t) (r : RegIdx) : t.reg r = s.reg r := by
  simp only [State.reg, h.regs]

/-! ### What every step keeps -/

theorem BeforeCompletion.mem_wf (h : BeforeCompletion i s u) (hs : s.mem.wf) : u.mem.wf := by
  obtain hm | ⟨a, n, v, -, hm⟩ := h.mem
  · rwa [hm]
  · rw [hm]
    exact wf_writeLE hs a n v

/-- The store is in bounds, so the entries it adds are within the memory length. -/
theorem BeforeCompletion.mem_within (h : BeforeCompletion i s u) (hs : ∀ c ∈ s.mem, c.1 < s.memLen) :
    ∀ c ∈ u.mem, c.1 < s.memLen := by
  obtain hm | ⟨a, n, v, hb, hm⟩ := h.mem
  · rwa [hm]
  · intro c hc
    rw [hm] at hc
    obtain hc | ⟨-, hlt⟩ := mem_writeLE hc
    · exact hs c hc
    · omega

theorem BeforeCompletion.inv_complete (h : BeforeCompletion i s u) (hs : s.Inv) (n : Word) : (u.complete n).Inv where
  zero := reg_complete_zero u n
  wf := h.mem_wf hs.wf
  within := by
    rw [complete_mem, complete_memLen, h.memLen]
    exact h.mem_within hs.within
  len := by
    rw [complete_memLen, h.memLen]
    exact hs.len

theorem StoppedFrom.inv (h : StoppedFrom s t) (hs : s.Inv) : t.Inv where
  zero := by rw [h.reg, hs.zero]
  wf := by rw [h.mem]; exact hs.wf
  within := by rw [h.mem, h.memLen]; exact hs.within
  len := by rw [h.memLen]; exact hs.len

/-- Settles O53: completing sets x0 and a store in bounds keeps the form of memory; stopping changes neither. -/
theorem stepKeepsTheInvariant : Obligations.StepKeepsTheInvariant := by
  intro s t hs h
  obtain ⟨w, i, u, -, hu, rfl⟩ | hstop := step_completes_or_stops h
  · exact hu.inv_complete hs _
  · exact hstop.inv hs

/-- Settles O56, by the two ways a step can end. -/
theorem memoryLengthIsConstantAndOutputGrows : Obligations.MemoryLengthIsConstantAndOutputGrows := by
  intro s t h
  obtain ⟨w, i, u, -, hu, rfl⟩ | hstop := step_completes_or_stops h
  · exact ⟨hu.memLen, hu.out⟩
  · exact ⟨hstop.memLen, hstop.out⟩

/-- Settles O48: `step` looks at the run status first. -/
theorem stoppedMachineTakesNoStep : Obligations.StoppedMachineTakesNoStep := by
  intro s h
  unfold step
  split
  next hr => exact absurd hr h
  next => rfl
  next => rfl

/-! ### The parity of the pc (rule R18) -/

/-- A sum of even words is even: the modulus is even. -/
theorem even_toNat_add {a b : Word} (ha : a.toNat % 2 = 0) (hb : b.toNat % 2 = 0) : (a + b).toNat % 2 = 0 := by
  rw [BitVec.toNat_add]
  omega

/-- An offset assembled with a zero bit at its end is even (rules R54, R56). -/
theorem even_toNat_signExtend_append {n : Nat} (x : BitVec n) : ((x ++ 0#1).signExtend 32).toNat % 2 = 0 := by
  have h : ((x ++ 0#1).signExtend 32).getLsbD 0 = false := by
    rw [BitVec.getLsbD_signExtend, if_pos (Nat.succ_pos n), BitVec.getLsbD_append]
    rfl
  simpa [BitVec.getLsbD, Nat.testBit_zero] using h

theorem even_immB (w : Word) : (immB w).toNat % 2 = 0 := even_toNat_signExtend_append _

theorem even_immJ (w : Word) : (immJ w).toNat % 2 = 0 := even_toNat_signExtend_append _

theorem even_pcPlus4 (hpc : s.pc.toNat % 2 = 0) : s.pcPlus4.toNat % 2 = 0 := even_toNat_add hpc rfl

theorem even_indirectTarget (s : State) (rs1 : RegIdx) (imm : Word) : (s.indirectTarget rs1 imm).toNat % 2 = 0 := by
  rw [State.indirectTarget, toNat_clearLowBit]
  omega

theorem even_branchTarget (hpc : s.pc.toNat % 2 = 0) (w : Word) (taken : Bool) :
    (if taken then s.pcTarget (immB w) else s.pcPlus4).toNat % 2 = 0 := by
  cases taken with
  | true => exact even_toNat_add hpc (even_immB w)
  | false => exact even_pcPlus4 hpc

/-- A decoded instruction goes on at an even address. -/
theorem even_nextPc {w : Word} (hd : decodeWord w = .ok i) (hpc : s.pc.toNat % 2 = 0) :
    (nextPc i s).toNat % 2 = 0 := by
  cases reads_of_decodeWord hd with
  | beq | bne | blt | bge | bltu | bgeu => exact even_branchTarget hpc w _
  | jal => exact even_toNat_add hpc (even_immJ w)
  | jalr => exact even_indirectTarget s _ _
  | _ => exact even_pcPlus4 hpc

/-- Settles O57: a completed step leaves the pc at `nextPc`, a stop leaves it where it was. -/
theorem evenPcStaysEven : Obligations.EvenPcStaysEven := by
  intro s t hpc h
  obtain ⟨w, i, u, hd, -, rfl⟩ | hstop := step_completes_or_stops h
  · exact even_nextPc hd hpc
  · rwa [hstop.pc]

/-! ### Reset (spec/70_reset_and_hazards.md) -/

/-- The state after reset with arguments that are not refused (rules R170 to R173). -/
def resetState (a : ResetArgs) : State :=
  { regs   := #v[0#32] ++ a.regInit
    pc     := a.base
    mem    := (initMemory a.memInit a.memSize).loadImage a.base.toNat a.image
    memLen := a.memLen
    run    := .running
    out    := [] }

theorem resetWith_accepted {a : ResetArgs}
    (h : a.memSize ≤ Config.addressSpace ∧ a.base.toNat + a.image.length ≤ Config.addressSpace) :
    State.resetWith a = .next (resetState a) := if_pos h

theorem resetWith_refused {a : ResetArgs}
    (h : ¬ (a.memSize ≤ Config.addressSpace ∧ a.base.toNat + a.image.length ≤ Config.addressSpace)) :
    State.resetWith a = .refused .resetArguments := if_neg h

theorem eq_resetState {a : ResetArgs} (h : State.resetWith a = .next s) : s = resetState a := by
  by_cases ha : a.memSize ≤ Config.addressSpace ∧ a.base.toNat + a.image.length ≤ Config.addressSpace
  · rw [resetWith_accepted ha] at h
    exact (Host.Outcome.next.inj h).symm
  · rw [resetWith_refused ha] at h
    cases h

theorem reg_resetState_zero (a : ResetArgs) : (resetState a).reg 0#5 = 0#32 :=
  Vector.getElem_append_left (xs := #v[0#32]) (ys := a.regInit) (i := 0) (by decide)

theorem reg_resetState_succ (a : ResetArgs) (k : Nat) (h : k < 31) :
    (resetState a).reg (BitVec.ofNat 5 (k + 1)) = a.regInit[k] := by
  have hk : (BitVec.ofNat 5 (k + 1)).toNat = k + 1 := by
    rw [BitVec.toNat_ofNat]
    omega
  simp only [State.reg, resetState, hk]
  exact Vector.getElem_append_right (xs := #v[0#32]) (ys := a.regInit) (by omega) (by omega)

/-- A byte after reset: the image inside it, elsewhere what was there before the load. -/
theorem byte_resetState (a : ResetArgs) (x : Nat) :
    (resetState a).byte x =
      if a.base.toNat ≤ x ∧ x < a.base.toNat + a.image.length
      then a.image.getD (x - a.base.toNat) Config.unlistedByte
      else if x < a.memSize then a.memInit x else Config.unlistedByte := by
  rw [← byte_initMemory]
  exact byte_loadImage (wf_initMemory _ _) _ _ x

/-- Settles O58: each piece by its own lemma, and memory by `byte_resetState` at the image, the gap and the rest. -/
theorem resetGivesEveryPieceItsValue : Obligations.ResetGivesEveryPieceItsValue := by
  intro a
  refine ⟨fun h => ⟨resetState a, resetWith_accepted h, reg_resetState_zero a, reg_resetState_succ a, rfl, rfl,
    ?image, ?gap, ?rest, rfl, rfl⟩, resetWith_refused⟩
  case image =>
    intro k hk
    rw [byte_resetState, if_pos (by omega), Nat.add_sub_cancel_left]
    exact List.getD_eq_getElem _ _ hk
  case gap =>
    intro x hsize hbase
    rw [byte_resetState, if_neg (by omega), if_neg (by omega)]
  case rest =>
    intro x hsize hx
    rw [byte_resetState, if_neg (by omega), if_pos hsize]

/-- Settles O54: the memory of `State.reset` lists nothing. -/
theorem resetMeetsTheInvariant : Obligations.ResetMeetsTheInvariant where
  zero := rfl
  wf := ⟨List.Pairwise.nil, fun _ h => absurd h List.not_mem_nil⟩
  within _ h := absurd h List.not_mem_nil
  len := by decide

/-! ### Which registers an instruction changes -/

/-- Settles O39: completing sets x0, stopping changes no register, reset sets x0. -/
theorem registerZeroReadsZero : Obligations.RegisterZeroReadsZero := by
  refine ⟨?completed, ?stopped, ?reset, ?step⟩
  case completed =>
    intro i s t h _ ht
    obtain ⟨u, -, rfl⟩ | hstop := exec_completes_or_stops h
    · exact reg_complete_zero u _
    · exact absurd ht hstop.run
  case stopped =>
    intro i s t h hs ht
    obtain ⟨u, hu, rfl⟩ | hstop := exec_completes_or_stops h
    · exact absurd (hu.run.trans hs) ht
    · exact hstop.regs
  case reset =>
    intro a s h
    rw [eq_resetState h]
    exact reg_resetState_zero a
  case step =>
    intro s t hs h
    obtain ⟨w, i, u, -, -, rfl⟩ | hstop := step_completes_or_stops h
    · exact reg_complete_zero u _
    · rw [hstop.reg, hs]

/-- Settles O40: completing changes x0 only, and what comes before it changes the destination only. -/
theorem onlyTheDestinationRegisterChanges : Obligations.OnlyTheDestinationRegisterChanges := by
  intro i s t r h h0 hr
  obtain ⟨u, hu, rfl⟩ | hstop := exec_completes_or_stops h
  · rw [reg_complete_ne _ _ _ h0, hu.regs r hr]
  · exact hstop.reg r

/-! ### The output stream (rule R21) -/

/-- Settles O43: of the effects of an instruction, only the write call's touches OUT. -/
theorem onlyTheWriteCallEmits : Obligations.OnlyTheWriteCallEmits := by
  intro i s t h hout
  cases exec_effect h with
  | wroteOut hi hn _ => exact ⟨hi, hn⟩
  | _ =>
    rename_i ht
    exact absurd (ht ▸ rfl) hout

/-- The state with the bytes `o` before its output. -/
def State.prependOut (o : List Byte) (s : State) : State := { s with out := o ++ s.out }

variable (o : List Byte)

theorem reg_prependOut (s : State) (r : RegIdx) : (s.prependOut o).reg r = s.reg r := rfl
theorem fetch_prependOut (s : State) : (s.prependOut o).fetch = s.fetch := rfl
theorem memRead_prependOut (s : State) (a : Nat) (w : Width) : (s.prependOut o).memRead a w = s.memRead a w := rfl

theorem emit_prependOut (s : State) (b : Byte) : (s.prependOut o).emit b = (s.emit b).prependOut o := by
  simp only [State.emit, State.prependOut, List.append_assoc]

theorem load_prependOut {w : Width} {ext : Word → Word} {rd : RegIdx} {ea : Word} (h : s.load w ext rd ea = .next t) :
    (s.prependOut o).load w ext rd ea = .next (t.prependOut o) := by
  unfold State.load at h ⊢
  rw [memRead_prependOut]
  cases hr : s.memRead ea.toNat w with
  | none => rw [hr] at h; cases h; rfl
  | some v => rw [hr] at h; cases h; rfl

theorem store_prependOut {w : Width} {ea v : Word} (h : s.store w ea v = .next t) :
    (s.prependOut o).store w ea v = .next (t.prependOut o) := by
  by_cases hb : ea.toNat + w.bytes ≤ s.memLen
  · rw [store_inBounds hb] at h
    cases h
    exact store_inBounds hb
  · rw [store_outOfBounds (by omega)] at h
    cases h
    exact store_outOfBounds (s := s.prependOut o) (Nat.lt_of_not_le hb)

theorem emitBytes_prependOut (cnt a : Nat) (s : State) :
    State.emitBytes cnt a (s.prependOut o) =
      ((State.emitBytes cnt a s).1.prependOut o, (State.emitBytes cnt a s).2) := by
  induction cnt generalizing a s with
  | zero => rfl
  | succ cnt ih =>
    simp only [State.emitBytes, memRead_prependOut]
    cases s.memRead a .byte with
    | none => rfl
    | some b => simp only [emit_prependOut, ih]

theorem writeCall_prependOut (s : State) : (s.prependOut o).writeCall = s.writeCall.prependOut o := by
  unfold State.writeCall
  rw [reg_prependOut, reg_prependOut, emitBytes_prependOut]
  obtain ⟨u, stop⟩ := State.emitBytes (s.reg Config.a2).toNat (s.reg Config.a1).toNat s
  cases stop with
  | none => rfl
  | some a => rfl

theorem execEcall_prependOut (h : execEcall s = .next t) :
    execEcall (s.prependOut o) = .next (t.prependOut o) := by
  by_cases h1 : s.reg Config.a7 = Config.exitCall
  · rw [execEcall_exit h1] at h
    cases h
    exact execEcall_exit h1
  by_cases h4 : s.reg Config.a7 = Config.writeCall
  · rw [execEcall_write h4] at h
    cases h
    rw [execEcall_write (s := s.prependOut o) h4, writeCall_prependOut]
  · rw [execEcall_other h1 h4] at h
    cases h
    exact execEcall_other h1 h4

/-- No instruction reads OUT: loads, stores and ECALL by their own lemmas, the others do not touch it. -/
theorem exec_prependOut (h : exec i s = .next t) : exec i (s.prependOut o) = .next (t.prependOut o) := by
  cases i with
  | lb | lh | lw | lbu | lhu => exact load_prependOut o h
  | sb | sh | sw => exact store_prependOut o h
  | ecall => exact execEcall_prependOut o h
  | _ => cases h; rfl

/-- Settles O52: the fetch does not read OUT, and no instruction does. -/
theorem outputIsNotRead : Obligations.OutputIsNotRead := by
  intro s t o h
  change step (s.prependOut o) = .next (t.prependOut o)
  obtain ⟨hr, heff⟩ := step_effect h
  cases heff with
  | noFetch hf ht =>
    subst ht
    exact step_noFetch (s := s.prependOut o) hr (memRead_outOfBounds hf)
  | noInstr w r hf hd ht =>
    subst ht
    exact step_noInstr (s := s.prependOut o) hr hf hd
  | executed w i hf hd he =>
    rw [step_executed (s := s.prependOut o) hr hf hd]
    exact exec_prependOut o he

/-! ### Which registers an instruction reads (rule R15) -/

variable {s' : State}

/-- The two states differ in their registers at most. -/
structure SameButRegs (s s' : State) : Prop where
  pc     : s'.pc = s.pc
  mem    : s'.mem = s.mem
  memLen : s'.memLen = s.memLen
  run    : s'.run = s.run
  out    : s'.out = s.out

/-- The two states differ in their registers at most, and agree on the destination `d` when the instruction completed. -/
structure AgreeAfter (d : Option RegIdx) (t t' : State) : Prop extends SameButRegs t t' where
  dest : ∀ r, d = some r → t.run = .running → t'.reg r = t.reg r

/-- Both outcomes are next states, and these agree. -/
inductive AgreeOutcomes (d : Option RegIdx) :
    Host.Outcome State Fault Refusal → Host.Outcome State Fault Refusal → Prop
  | next {t t' : State} (h : AgreeAfter d t t') : AgreeOutcomes d (.next t) (.next t')

theorem shiftAmount_eq {r : RegIdx} (hr : s'.reg r = s.reg r) : s'.shiftAmount r = s.shiftAmount r :=
  congrArg (BitVec.setWidth 5) hr

section Operations

variable {d : Option RegIdx} (h : SameButRegs s s')
include h

theorem agreeAfter_of_stopped (hr : s.run ≠ .running) : AgreeAfter d s s' := ⟨h, fun _ _ e => absurd e hr⟩

theorem agreeAfter_raise (c : Condition) (info : FatalInfo) : AgreeAfter d (s.raise c info) (s'.raise c info) :=
  agreeAfter_of_stopped ⟨h.pc, h.mem, h.memLen, rfl, h.out⟩ (by simp)

theorem sameButRegs_withMem (m : Memory) : SameButRegs { s with mem := m } { s' with mem := m } :=
  ⟨h.pc, rfl, h.memLen, h.run, h.out⟩

theorem sameButRegs_emit (b : Byte) : SameButRegs (s.emit b) (s'.emit b) :=
  ⟨h.pc, h.mem, h.memLen, h.run, congrArg (· ++ [b]) h.out⟩

theorem agreeAfter_complete (n : Word) : AgreeAfter none (s.complete n) (s'.complete n) :=
  ⟨⟨rfl, h.mem, h.memLen, h.run, h.out⟩, fun _ e => by cases e⟩

theorem agreeAfter_setReg_complete (rd : RegIdx) (v n : Word) :
    AgreeAfter (some rd) ((s.setReg rd v).complete n) ((s'.setReg rd v).complete n) where
  toSameButRegs := ⟨rfl, h.mem, h.memLen, h.run, h.out⟩
  dest r hr _ := by
    cases hr
    simp only [reg_complete, reg_setReg_self]

theorem pcPlus4_eq : s'.pcPlus4 = s.pcPlus4 := congrArg (· + 4#32) h.pc

theorem pcTarget_eq (imm : Word) : s'.pcTarget imm = s.pcTarget imm := congrArg (· + imm) h.pc

theorem memRead_eq (a : Nat) (w : Width) : s'.memRead a w = s.memRead a w := by
  simp only [State.memRead, State.inBounds, h.mem, h.memLen]

theorem agree_writeBack {rd : RegIdx} {v v' : Word} (hv : v' = v) :
    AgreeOutcomes (some rd) (s.writeBack rd v) (s'.writeBack rd v') := by
  rw [State.writeBack, State.writeBack, hv, pcPlus4_eq h]
  exact .next (agreeAfter_setReg_complete h rd v _)

theorem agree_link {rd : RegIdx} {target target' : Word} (ht : target' = target) :
    AgreeOutcomes (some rd) (s.link rd target) (s'.link rd target') := by
  rw [State.link, State.link, ht, pcPlus4_eq h]
  exact .next (agreeAfter_setReg_complete h rd _ target)

theorem agree_branch {taken taken' : Bool} {imm : Word} (hc : taken' = taken) :
    AgreeOutcomes none (s.branch taken (s.pcTarget imm)) (s'.branch taken' (s'.pcTarget imm)) := by
  rw [State.branch, State.branch, hc, pcTarget_eq h, pcPlus4_eq h]
  exact .next (agreeAfter_complete h _)

theorem agree_load {w : Width} {ext : Word → Word} {rd : RegIdx} {ea ea' : Word} (ha : ea' = ea) :
    AgreeOutcomes (some rd) (s.load w ext rd ea) (s'.load w ext rd ea') := by
  rw [State.load, State.load, ha, memRead_eq h]
  cases s.memRead ea.toNat w with
  | none => exact .next (agreeAfter_raise h _ _)
  | some v => exact agree_writeBack h rfl

theorem agree_store {w : Width} {ea ea' v v' : Word} (ha : ea' = ea) (hv : v' = v) :
    AgreeOutcomes none (s.store w ea v) (s'.store w ea' v') := by
  subst ha hv
  by_cases hb : ea'.toNat + w.bytes ≤ s.memLen
  · rw [store_inBounds hb, store_inBounds (by rw [h.memLen]; exact hb), pcPlus4_eq h, h.mem]
    exact .next (agreeAfter_complete (sameButRegs_withMem h _) _)
  · rw [store_outOfBounds (by omega), store_outOfBounds (by rw [h.memLen]; omega)]
    exact .next (agreeAfter_raise h _ _)

/-- Emission reads memory alone. -/
theorem sameButRegs_emitBytes (cnt a : Nat) :
    SameButRegs (State.emitBytes cnt a s).1 (State.emitBytes cnt a s').1 ∧
      (State.emitBytes cnt a s').2 = (State.emitBytes cnt a s).2 := by
  induction cnt generalizing a s s' with
  | zero => exact ⟨h, rfl⟩
  | succ cnt ih =>
    simp only [State.emitBytes, memRead_eq h]
    cases s.memRead a .byte with
    | none => exact ⟨h, rfl⟩
    | some b => exact ih (sameButRegs_emit h _) (a + 1)

theorem agreeAfter_writeCall (h11 : s'.reg Config.a1 = s.reg Config.a1) (h12 : s'.reg Config.a2 = s.reg Config.a2) :
    AgreeAfter none s.writeCall s'.writeCall := by
  have hemit := sameButRegs_emitBytes h (s.reg Config.a2).toNat (s.reg Config.a1).toNat
  unfold State.writeCall
  rw [h11, h12, pcPlus4_eq h]
  generalize State.emitBytes (s.reg Config.a2).toNat (s.reg Config.a1).toNat s = e at hemit ⊢
  generalize State.emitBytes (s.reg Config.a2).toNat (s.reg Config.a1).toNat s' = e' at hemit ⊢
  obtain ⟨u, _⟩ := e
  obtain ⟨u', stop⟩ := e'
  obtain ⟨hu, hstop⟩ := hemit
  subst hstop
  cases stop with
  | none => exact agreeAfter_complete hu _
  | some a => exact agreeAfter_raise hu _ _

theorem agree_ecall (hsrc : ∀ r ∈ Instr.ecall.sources, s'.reg r = s.reg r) :
    AgreeOutcomes none (execEcall s) (execEcall s') := by
  have h17 : s'.reg Config.a7 = s.reg Config.a7 := hsrc _ (by decide)
  by_cases h1 : s.reg Config.a7 = Config.exitCall
  · rw [execEcall_exit h1, execEcall_exit (h17.trans h1), State.exitCall, State.exitCall, hsrc Config.a0 (by decide)]
    exact .next (agreeAfter_of_stopped ⟨h.pc, h.mem, h.memLen, rfl, h.out⟩ (by simp))
  by_cases h4 : s.reg Config.a7 = Config.writeCall
  · rw [execEcall_write h4, execEcall_write (h17.trans h4)]
    exact .next (agreeAfter_writeCall h (hsrc _ (by decide)) (hsrc _ (by decide)))
  · rw [execEcall_other h1 h4, execEcall_other (h17 ▸ h1) (h17 ▸ h4), h17]
    exact .next (agreeAfter_raise h _ _)

theorem agree_ebreak : AgreeOutcomes none (execEbreak s) (execEbreak s') := by
  rw [execEbreak, execEbreak, h.pc]
  exact .next (agreeAfter_raise h _ _)

end Operations

/-- From states that agree on the sources, an instruction leads to states that agree on the destination. -/
theorem exec_agree (h : SameButRegs s s') (hsrc : ∀ r ∈ i.sources, s'.reg r = s.reg r) :
    AgreeOutcomes i.dest (exec i s) (exec i s') := by
  cases i with
  | addi rd rs1 imm | slti rd rs1 imm | sltiu rd rs1 imm | xori rd rs1 imm | ori rd rs1 imm | andi rd rs1 imm =>
    have h1 := hsrc rs1 (by simp [Instr.sources])
    exact agree_writeBack h (by rw [h1])
  | slli rd rs1 shamt | srli rd rs1 shamt | srai rd rs1 shamt =>
    have h1 := hsrc rs1 (by simp [Instr.sources])
    exact agree_writeBack h (by rw [h1])
  | add rd rs1 rs2 | sub rd rs1 rs2 | slt rd rs1 rs2 | sltu rd rs1 rs2 | xor rd rs1 rs2 | or rd rs1 rs2
  | and rd rs1 rs2 =>
    have h1 := hsrc rs1 (by simp [Instr.sources])
    have h2 := hsrc rs2 (by simp [Instr.sources])
    exact agree_writeBack h (by rw [h1, h2])
  | sll rd rs1 rs2 | srl rd rs1 rs2 | sra rd rs1 rs2 =>
    have h1 := hsrc rs1 (by simp [Instr.sources])
    have h2 := hsrc rs2 (by simp [Instr.sources])
    exact agree_writeBack h (by rw [h1, shiftAmount_eq h2])
  | lb rd rs1 imm | lh rd rs1 imm | lw rd rs1 imm | lbu rd rs1 imm | lhu rd rs1 imm =>
    have h1 := hsrc rs1 (by simp [Instr.sources])
    exact agree_load h (congrArg (· + imm) h1)
  | sb rs1 rs2 imm | sh rs1 rs2 imm | sw rs1 rs2 imm =>
    have h1 := hsrc rs1 (by simp [Instr.sources])
    have h2 := hsrc rs2 (by simp [Instr.sources])
    exact agree_store h (congrArg (· + imm) h1) h2
  | beq rs1 rs2 imm | bne rs1 rs2 imm | blt rs1 rs2 imm | bge rs1 rs2 imm | bltu rs1 rs2 imm
  | bgeu rs1 rs2 imm =>
    have h1 := hsrc rs1 (by simp [Instr.sources])
    have h2 := hsrc rs2 (by simp [Instr.sources])
    exact agree_branch h (by rw [h1, h2])
  | jal rd imm => exact agree_link h (pcTarget_eq h imm)
  | jalr rd rs1 imm =>
    have h1 := hsrc rs1 (by simp [Instr.sources])
    exact agree_link h (by rw [State.indirectTarget, State.indirectTarget, h1])
  | lui rd imm => exact agree_writeBack h rfl
  | auipc rd imm => exact agree_writeBack h (by rw [h.pc])
  | ecall => exact agree_ecall h hsrc
  | ebreak => exact agree_ebreak h

/-- Settles O41, by `exec_agree`. -/
theorem outcomeDependsOnlyOnTheSources : Obligations.OutcomeDependsOnlyOnTheSources := by
  intro i s s' t t' h h' hsrc hpc hmem hlen hrun hout
  have hagree := exec_agree ⟨hpc, hmem, hlen, hrun, hout⟩ hsrc
  rw [h, h'] at hagree
  cases hagree with
  | next ha => exact ⟨ha.pc, ha.mem, ha.memLen, ha.run, ha.out, ha.dest⟩

end Sys2Proof.Machine

/-! SUPPORT and PROOFS. The statements about memory (spec/20_memory.md): the checked read and write, what an instruction
does to memory, and the fetch of a word that was just written. -/

namespace Sys2Proof.Machine

variable {s t : State} {i : Instr}

/-! ### The checked read and write (rules R32 to R35) -/

/-- Settles O35, by `readLE_eq_sum`. -/
theorem memReadIsTheLittleEndianSum : Obligations.MemReadIsTheLittleEndianSum := by
  intro s a w
  refine ⟨fun hb => ?_, memRead_outOfBounds⟩
  have hr := memRead_inBounds hb
  exact ⟨_, hr, (toNat_memRead hr).trans (readLE_eq_sum s.mem a w.bytes)⟩

/-- Settles O36: the bytes by `byte_writeLE_inside` and `byte_writeLE_outside`; a write updates memory alone. -/
theorem memWriteStoresTheLowBytes : Obligations.MemWriteStoresTheLowBytes := by
  intro s a w v hwf
  refine ⟨fun hb => ⟨_, memWrite_inBounds v hb, ?stored, ?outside, rfl, rfl, rfl, rfl, rfl⟩,
    memWrite_outOfBounds v⟩
  case stored =>
    intro k hk
    exact (congrArg BitVec.toNat (byte_writeLE_inside hwf v hk)).trans (toNat_byte_part v k)
  case outside =>
    intro x hx
    exact byte_writeLE_outside hwf v hx

/-- Reading the bytes just written gives the low `8n` bits: the low byte, then by induction the bytes of `v >>> 8`. -/
theorem readLE_writeLE {m : Memory} (hm : m.wf) (a n : Nat) (v : Word) :
    (m.writeLE a n v).readLE a n = v.toNat % 2 ^ (8 * n) := by
  induction n generalizing m a v with
  | zero => exact (Nat.mod_one _).symm
  | succ n ih =>
    have hlow : ((m.writeLE a (n + 1) v).byte a).toNat = v.toNat % 256 := by
      have h := byte_writeLE_inside hm (a := a) v (Nat.succ_pos n)
      rw [Nat.add_zero] at h
      rw [h, toNat_byte_part, Nat.mul_zero, Nat.pow_zero, Nat.div_one]
    have hrest : (m.writeLE a (n + 1) v).readLE (a + 1) n = v.toNat / 2 ^ 8 % 2 ^ (8 * n) := by
      rw [Memory.writeLE, ih (wf_setByte hm a _), BitVec.toNat_ushiftRight, Nat.shiftRight_eq_div_pow]
    rw [Memory.readLE, hlow, hrest, Nat.mul_succ, Nat.add_comm (8 * n), Nat.pow_add]
    exact (Nat.mod_mul).symm

/-- Settles O37: the write keeps the memory length, so the read after it is in bounds; its value is `readLE_writeLE`. -/
theorem readAfterWriteGivesTheLowBits : Obligations.ReadAfterWriteGivesTheLowBits := by
  intro s a w v hwf hb
  have hr := memRead_inBounds (s := { s with mem := s.mem.writeLE a w.bytes v }) hb
  exact ⟨_, _, memWrite_inBounds v hb, hr, (toNat_memRead hr).trans (readLE_writeLE hwf a w.bytes v)⟩

/-! ### What an instruction does to memory (rules R38, R118) -/

theorem writeCall_mem (s : State) : s.writeCall.mem = s.mem := by
  obtain ⟨bs, h | ⟨a, h⟩⟩ := writeCall_cases s
  · rw [h]; rfl
  · rw [h]; rfl

/-- An instruction leaves memory as it was, or is a store that writes the bytes of its own access. -/
theorem exec_mem (h : exec i s = .next t) :
    t.mem = s.mem ∨
      ∃ a w v, i.isStore ∧ i.access s = some (a, Width.bytes w) ∧ t.mem = s.mem.writeLE a w.bytes v := by
  cases exec_effect h with
  | stored a w v hs ha _ ht => exact .inr ⟨a, w, v, hs, ha, congrArg State.mem ht⟩
  | wroteOut _ _ ht => exact .inl (by rw [ht, writeCall_mem])
  | wrote _ _ _ ht | moved _ ht | outside _ _ _ _ ht | exited _ _ ht | badCall _ _ _ ht | breakpoint _ ht =>
    subst ht
    exact .inl rfl

/-- Settles O42: memory changes by a store alone (`exec_mem`), and a store leaves the bytes outside its access. -/
theorem onlyStoresChangeMemory : Obligations.OnlyStoresChangeMemory := by
  intro i s t hwf h
  obtain hm | ⟨a, w, v, hs, ha, hm⟩ := exec_mem h
  · have hsame : ∀ x, t.byte x = s.byte x := fun x => congrArg (Memory.byte · x) hm
    exact ⟨fun _ => hsame, fun _ _ _ _ x _ => hsame x⟩
  · refine ⟨fun hns => absurd hs hns, fun addr n _ hacc x hx => ?_⟩
    obtain ⟨rfl, rfl⟩ : a = addr ∧ w.bytes = n := by simpa using ha.symm.trans hacc
    rw [State.byte, hm]
    exact byte_writeLE_outside hwf v hx

/-! ### The fetch of a word just written (rules R37, R44) -/

/-- The word at the pc is the one that was stored there. -/
theorem wordAtPc_of_writeLE {m : Memory} {v : Word} (hm : m.wf) (h : t.mem = m.writeLE t.pc.toNat 4 v) :
    t.wordAtPc = v := by
  simp only [State.wordAtPc, State.byte, h]
  exact wordOfBytes_writeLE hm _ v

/-- SW that does not stop the run was in bounds, and completes its store (rules R118, R121). -/
theorem sw_completes {rs1 rs2 : RegIdx} {imm : Word} (h : exec (.sw rs1 rs2 imm) s = .next t)
    (ht : t.run = .running) :
    (s.effAddr rs1 imm).toNat + 4 ≤ s.memLen ∧
      t = ({ s with mem := s.mem.writeLE (s.effAddr rs1 imm).toNat 4 (s.reg rs2) } : State).complete s.pcPlus4 := by
  change s.store .word (s.effAddr rs1 imm) (s.reg rs2) = .next t at h
  by_cases hb : (s.effAddr rs1 imm).toNat + Width.word.bytes ≤ s.memLen
  · rw [store_inBounds hb] at h
    exact ⟨hb, (Host.Outcome.next.inj h).symm⟩
  · rw [store_outOfBounds (Nat.lt_of_not_le hb)] at h
    cases h
    cases ht

/-- Settles O51: the store is at the pc after it, so its bounds check is the fetch's and its word the one at the pc. -/
theorem nextFetchSeesTheStore : Obligations.NextFetchSeesTheStore := by
  intro rs1 rs2 imm s t hwf _ h ht hea
  obtain ⟨hb, rfl⟩ := sw_completes h ht
  rw [hea] at hb ⊢
  exact ⟨hb, wordAtPc_of_writeLE hwf rfl⟩

/-- A running machine that can fetch executes the instruction the word at its pc is (rules R80 to R82). -/
theorem step_eq_exec (hr : s.run = .running) (hc : s.canFetch) (hd : decodeWord s.wordAtPc = .ok i) :
    step s = exec i s :=
  step_executed hr (fetch_eq_some.2 ⟨hc, rfl⟩) hd

theorem decodeBytes_eq_ok {b0 b1 b2 b3 : Byte} {rest rest' : List Byte} :
    decodeBytes (b0 :: b1 :: b2 :: b3 :: rest) = .ok (i, rest') ↔
      decodeWord (wordOfBytes b0 b1 b2 b3) = .ok i ∧ rest = rest' := by
  rw [decodeBytes]
  cases decodeWord (wordOfBytes b0 b1 b2 b3) with
  | ok j => simp
  | error r => simp

/-- The instruction of the table's word is what the word decodes to (rule R58). -/
theorem decodeWord_of_decodeTableWord {nbits w : Nat} (h : decodeTableWord nbits w = some i) :
    decodeWord (tableWord nbits w) = .ok i := by
  unfold decodeTableWord at h
  split at h
  next j rest hb =>
    cases h
    rw [← wordOfBytes_bytesOfWord (tableWord nbits w)]
    exact (decodeBytes_eq_ok.1 hb).1
  next => cases h

/-- Settles O59: the placed word is in bounds at the pc, so the step fetches it, decodes it and executes it. -/
theorem placedWordIsTheNextInstruction : Obligations.PlacedWordIsTheNextInstruction := by
  intro s n i hwf hd
  have hword : (s.withFetchWord 32 n).wordAtPc = tableWord 32 n := wordAtPc_of_writeLE hwf rfl
  have hdec : decodeWord (s.withFetchWord 32 n).wordAtPc = .ok i := by
    rw [hword]
    exact decodeWord_of_decodeTableWord hd
  exact ⟨step_eq_exec rfl (Nat.le_max_right _ _) hdec, rfl, rfl, rfl⟩

end Sys2Proof.Machine

/-! SUPPORT and PROOFS. The statements about the decoder and the encoder (spec/30_encoding.md). They rest on `Reads`, the
rows of rule R58: which words a row reads, what it makes of an encoded word, and what encoding its reading gives back. -/

namespace Sys2Proof

variable {w : Word} {i : Instr} {d : DecodedFields}

/-! ### The seven values (rule R57) -/

theorem toNat_extractLsb' (w : Word) (lo len : Nat) : (w.extractLsb' lo len).toNat = w.toNat / 2 ^ lo % 2 ^ len := by
  rw [BitVec.extractLsb'_toNat, Nat.shiftRight_eq_div_pow]

theorem toNat_opcodeField (w : Word) : (opcodeField w).toNat = w.toNat % 128 :=
  (toNat_extractLsb' w 0 7).trans (congrArg (· % 128) (Nat.div_one _))

theorem decodeImm_iShape (h : opcodeField w ∈ [0x03#7, 0x13#7, 0x67#7, 0x73#7]) : decodeImm w = immI w := by
  simp only [List.mem_cons, List.not_mem_nil, or_false] at h
  rcases h with h | h | h | h <;> simp only [decodeImm, h]

theorem decodeImm_sShape (h : opcodeField w = 0x23#7) : decodeImm w = immS w := by
  simp only [decodeImm, h]

theorem decodeImm_bShape (h : opcodeField w = 0x63#7) : decodeImm w = immB w := by
  simp only [decodeImm, h]

theorem decodeImm_uShape (h : opcodeField w ∈ [0x37#7, 0x17#7]) : decodeImm w = immU w := by
  simp only [List.mem_cons, List.not_mem_nil, or_false] at h
  rcases h with h | h <;> simp only [decodeImm, h]

theorem decodeImm_jShape (h : opcodeField w = 0x6F#7) : decodeImm w = immJ w := by
  simp only [decodeImm, h]

theorem decodeImm_noImm
    (h : opcodeField w ∉ [0x03#7, 0x13#7, 0x67#7, 0x73#7, 0x23#7, 0x63#7, 0x37#7, 0x17#7, 0x6F#7]) :
    decodeImm w = 0#32 := by
  simp only [List.mem_cons, List.not_mem_nil, or_false, not_or] at h
  unfold decodeImm
  split <;> simp_all only [not_true_eq_false, false_and, and_false]

/-- Settles O1: the fields are bit ranges, the immediate goes by the opcode's shape. -/
theorem decoderExtractsSevenValues : Obligations.DecoderExtractsSevenValues := fun w =>
  ⟨toNat_opcodeField w, toNat_extractLsb' w 7 5, toNat_extractLsb' w 12 3, toNat_extractLsb' w 15 5,
    toNat_extractLsb' w 20 5, toNat_extractLsb' w 25 7, decodeImm_iShape, decodeImm_sShape, decodeImm_bShape,
    decodeImm_uShape, decodeImm_jShape, decodeImm_noImm⟩

/-! ### The bits of the immediates (rules R52 to R56)

A sign extension repeats the top bit, so its bit `k` is bit `min k (n - 1)` of the value; which piece of the
concatenation that bit lies in is a matter of comparing positions. -/

theorem getLsbD_signExtend_min {n k : Nat} (v : BitVec n) (hn : 0 < n) (hk : k < 32) :
    (v.signExtend 32).getLsbD k = v.getLsbD (min k (n - 1)) := by
  rw [BitVec.getLsbD_signExtend, decide_eq_true hk, Bool.true_and, BitVec.msb_eq_getLsbD_last]
  split
  next h => rw [Nat.min_eq_left (by omega)]
  next h => rw [Nat.min_eq_right (by omega)]

theorem getLsbD_immI (w : Word) {k : Nat} (hk : k < 32) :
    (immI w).getLsbD k = if k < 11 then w.getLsbD (k + 20) else w.getLsbD 31 := by
  rw [immI, getLsbD_signExtend_min _ (by decide) hk]
  grind

theorem getLsbD_immS (w : Word) {k : Nat} (hk : k < 32) :
    (immS w).getLsbD k =
      if k < 5 then w.getLsbD (k + 7) else if k < 11 then w.getLsbD (k + 20) else w.getLsbD 31 := by
  rw [immS, getLsbD_signExtend_min _ (by decide) hk]
  grind

theorem getLsbD_immB (w : Word) {k : Nat} (hk : k < 32) :
    (immB w).getLsbD k =
      if k = 0 then false else if k < 5 then w.getLsbD (k + 7) else if k < 11 then w.getLsbD (k + 20)
      else if k = 11 then w.getLsbD 7 else w.getLsbD 31 := by
  rw [immB, getLsbD_signExtend_min _ (by decide) hk]
  grind

theorem getLsbD_immU (w : Word) {k : Nat} (hk : k < 32) :
    (immU w).getLsbD k = if k < 12 then false else w.getLsbD k := by
  rw [immU, BitVec.getLsbD_append]
  grind

theorem getLsbD_immJ (w : Word) {k : Nat} (hk : k < 32) :
    (immJ w).getLsbD k =
      if k = 0 then false else if k < 11 then w.getLsbD (k + 20) else if k = 11 then w.getLsbD 20
      else if k < 20 then w.getLsbD k else w.getLsbD 31 := by
  rw [immJ, getLsbD_signExtend_min _ (by decide) hk]
  grind

/-- Settles O2, shape by shape. -/
theorem immediateBitsComeFromTheirPositions : Obligations.ImmediateBitsComeFromTheirPositions := fun w _ hk =>
  ⟨getLsbD_immI w hk, getLsbD_immS w hk, getLsbD_immB w hk, getLsbD_immU w hk, getLsbD_immJ w hk⟩

/-! ### Decoded immediates are well formed (rules R52 to R56) -/

theorem fitsSigned_signExtend {n : Nat} (v : BitVec n) (hn : n ≤ 32) : fitsSigned n (v.signExtend 32) = true := by
  rw [fitsSigned, setWidth_signExtend hn, beq_self_eq_true]

theorem wfImm12_immI (w : Word) : wfImm12 (immI w) = true := fitsSigned_signExtend _ (by decide)

theorem wfImm12_immS (w : Word) : wfImm12 (immS w) = true := fitsSigned_signExtend _ (by decide)

theorem wfImmB_immB (w : Word) : wfImmB (immB w) = true := by
  have hfits : fitsSigned 13 (immB w) = true := fitsSigned_signExtend _ (by decide)
  have heven : (immB w).getLsbD 0 = false := getLsbD_immB w (by decide)
  rw [wfImmB, hfits, heven]
  rfl

theorem wfImmJ_immJ (w : Word) : wfImmJ (immJ w) = true := by
  have hfits : fitsSigned 21 (immJ w) = true := fitsSigned_signExtend _ (by decide)
  have heven : (immJ w).getLsbD 0 = false := getLsbD_immJ w (by decide)
  rw [wfImmJ, hfits, heven]
  rfl

theorem wfImmU_immU (w : Word) : wfImmU (immU w) = true :=
  beq_iff_eq.2 BitVec.setWidth_append_eq_right

theorem wellFormed_of_reads (h : Reads w i) : i.wellFormed = true := by
  cases h with
  | addi | slti | sltiu | xori | ori | andi | lb | lh | lw | lbu | lhu | jalr => exact wfImm12_immI w
  | sb | sh | sw => exact wfImm12_immS w
  | beq | bne | blt | bge | bltu | bgeu => exact wfImmB_immB w
  | lui | auipc => exact wfImmU_immU w
  | jal => exact wfImmJ_immJ w
  | _ => rfl

/-- Settles O5, by the shape of the immediate. -/
theorem decodedInstructionIsWellFormed : Obligations.DecodedInstructionIsWellFormed :=
  fun _ _ h => wellFormed_of_reads (reads_of_decodeWord h)

/-! ### The fixed bits of a row (rule R58) -/

section
variable {o f7 : BitVec 7} {f3 : BitVec 3} {r2 : BitVec 5}

theorem append_fields (w : Word) :
    funct7Field w ++ rs2Field w ++ rs1Field w ++ funct3Field w ++ rdField w ++ opcodeField w = w := by
  apply BitVec.eq_of_getLsbD_eq
  intro k hk
  rw [funct7Field, rs2Field, rs1Field, funct3Field, rdField, opcodeField]
  grind

theorem append_eq_append_iff {n m : Nat} {a b : BitVec n} {x y : BitVec m} : a ++ x = b ++ y ↔ a = b ∧ x = y := by
  constructor
  · intro h
    have hhigh := congrArg (BitVec.extractLsb' m n) h
    have hlow := congrArg (BitVec.extractLsb' 0 m) h
    rw [BitVec.extractLsb'_append_eq_left, BitVec.extractLsb'_append_eq_left] at hhigh
    rw [BitVec.extractLsb'_append_eq_right, BitVec.extractLsb'_append_eq_right] at hlow
    exact ⟨hhigh, hlow⟩
  · rintro ⟨rfl, rfl⟩
    rfl

/-- A word matches under a mask when each of its fields matches under the mask's. -/
theorem and_eq_iff_fields (m7 : BitVec 7) (m2 m1 : BitVec 5) (m3 : BitVec 3) (md : BitVec 5) (mo : BitVec 7)
    {v7 : BitVec 7} {v2 v1 : BitVec 5} {v3 : BitVec 3} {vd : BitVec 5} {vo : BitVec 7} :
    w &&& (m7 ++ m2 ++ m1 ++ m3 ++ md ++ mo) = v7 ++ v2 ++ v1 ++ v3 ++ vd ++ vo ↔
      ((((funct7Field w &&& m7 = v7 ∧ rs2Field w &&& m2 = v2) ∧ rs1Field w &&& m1 = v1) ∧
        funct3Field w &&& m3 = v3) ∧ rdField w &&& md = vd) ∧ opcodeField w &&& mo = vo := by
  have h := congrArg (· &&& (m7 ++ m2 ++ m1 ++ m3 ++ md ++ mo)) (append_fields w).symm
  simp only [BitVec.and_append] at h
  refine (Eq.congr_left h).trans (append_eq_append_iff.trans (and_congr_left' ?_))
  simp only [append_eq_append_iff]

theorem and_opcodeMask_iff : w &&& 0x0000007F#32 = 0#7 ++ 0#5 ++ 0#5 ++ 0#3 ++ 0#5 ++ o ↔ opcodeField w = o := by
  refine (and_eq_iff_fields 0#7 0#5 0#5 0#3 0#5 (.allOnes 7)).trans ?_
  simp only [BitVec.and_zero, BitVec.and_allOnes, true_and]

theorem and_funct3Mask_iff :
    w &&& 0x0000707F#32 = 0#7 ++ 0#5 ++ 0#5 ++ f3 ++ 0#5 ++ o ↔ funct3Field w = f3 ∧ opcodeField w = o := by
  refine (and_eq_iff_fields 0#7 0#5 0#5 (.allOnes 3) 0#5 (.allOnes 7)).trans ?_
  simp only [BitVec.and_zero, BitVec.and_allOnes, true_and, and_true]

theorem and_funct7Mask_iff :
    w &&& 0xFE00707F#32 = f7 ++ 0#5 ++ 0#5 ++ f3 ++ 0#5 ++ o ↔
      funct7Field w = f7 ∧ funct3Field w = f3 ∧ opcodeField w = o := by
  refine (and_eq_iff_fields (.allOnes 7) 0#5 0#5 (.allOnes 3) 0#5 (.allOnes 7)).trans ?_
  simp only [BitVec.and_zero, BitVec.and_allOnes, and_true, and_assoc]

theorem immBits_eq_append_iff : w.extractLsb' 20 12 = f7 ++ r2 ↔ funct7Field w = f7 ∧ rs2Field w = r2 := by
  have h : funct7Field w ++ rs2Field w = w.extractLsb' 20 12 :=
    BitVec.extractLsb'_append_extractLsb'_eq_extractLsb' rfl
  rw [← h]
  exact append_eq_append_iff

theorem and_systemMask_iff :
    w &&& 0xFFF0007F#32 = f7 ++ r2 ++ 0#5 ++ 0#3 ++ 0#5 ++ o ↔
      w.extractLsb' 20 12 = f7 ++ r2 ∧ opcodeField w = o := by
  rw [immBits_eq_append_iff]
  refine (and_eq_iff_fields (.allOnes 7) (.allOnes 5) 0#5 0#3 0#5 (.allOnes 7)).trans ?_
  simp only [BitVec.and_zero, BitVec.and_allOnes, and_true]

theorem row_of_reads (h : Reads w i) : w &&& i.rowMask = i.rowMatch := by
  cases h with
  | slli op h3 h7 | srli op h3 h7 | srai op h3 h7 | add op h3 h7 | sub op h3 h7 | sll op h3 h7 | slt op h3 h7
  | sltu op h3 h7 | xor op h3 h7 | srl op h3 h7 | sra op h3 h7 | or op h3 h7 | and op h3 h7 =>
    exact and_funct7Mask_iff.2 ⟨h7, h3, op⟩
  | jal op | jalr op | lui op | auipc op => exact and_opcodeMask_iff.2 op
  | ecall op im => exact and_systemMask_iff (f7 := 0#7) (r2 := 0#5).2 ⟨im, op⟩
  | ebreak op im => exact and_systemMask_iff (f7 := 0#7) (r2 := 1#5).2 ⟨im, op⟩
  | _ op h3 => exact and_funct3Mask_iff.2 ⟨h3, op⟩

theorem reads_of_funct3Row {f : Word → Instr} (row : ∀ w, opcodeField w = o → funct3Field w = f3 → Reads w (f w))
    (h : w &&& 0x0000707F#32 = 0#7 ++ 0#5 ++ 0#5 ++ f3 ++ 0#5 ++ o) : Reads w (f w) := by
  obtain ⟨h3, op⟩ := and_funct3Mask_iff.1 h
  exact row w op h3

theorem reads_of_funct7Row {f : Word → Instr}
    (row : ∀ w, opcodeField w = o → funct3Field w = f3 → funct7Field w = f7 → Reads w (f w))
    (h : w &&& 0xFE00707F#32 = f7 ++ 0#5 ++ 0#5 ++ f3 ++ 0#5 ++ o) : Reads w (f w) := by
  obtain ⟨h7, h3, op⟩ := and_funct7Mask_iff.1 h
  exact row w op h3 h7

end

/-- A word with the fixed bits of a row is an instruction of that row. -/
theorem reads_of_row (h : w &&& i.rowMask = i.rowMatch) :
    ∃ j, Reads w j ∧ j.rowMask = i.rowMask ∧ j.rowMatch = i.rowMatch := by
  cases i with
  | addi => exact ⟨_, reads_of_funct3Row (fun _ => .addi) h, rfl, rfl⟩
  | slti => exact ⟨_, reads_of_funct3Row (fun _ => .slti) h, rfl, rfl⟩
  | sltiu => exact ⟨_, reads_of_funct3Row (fun _ => .sltiu) h, rfl, rfl⟩
  | xori => exact ⟨_, reads_of_funct3Row (fun _ => .xori) h, rfl, rfl⟩
  | ori => exact ⟨_, reads_of_funct3Row (fun _ => .ori) h, rfl, rfl⟩
  | andi => exact ⟨_, reads_of_funct3Row (fun _ => .andi) h, rfl, rfl⟩
  | slli => exact ⟨_, reads_of_funct7Row (fun _ => .slli) h, rfl, rfl⟩
  | srli => exact ⟨_, reads_of_funct7Row (fun _ => .srli) h, rfl, rfl⟩
  | srai => exact ⟨_, reads_of_funct7Row (fun _ => .srai) h, rfl, rfl⟩
  | add => exact ⟨_, reads_of_funct7Row (fun _ => .add) h, rfl, rfl⟩
  | sub => exact ⟨_, reads_of_funct7Row (fun _ => .sub) h, rfl, rfl⟩
  | sll => exact ⟨_, reads_of_funct7Row (fun _ => .sll) h, rfl, rfl⟩
  | slt => exact ⟨_, reads_of_funct7Row (fun _ => .slt) h, rfl, rfl⟩
  | sltu => exact ⟨_, reads_of_funct7Row (fun _ => .sltu) h, rfl, rfl⟩
  | xor => exact ⟨_, reads_of_funct7Row (fun _ => .xor) h, rfl, rfl⟩
  | srl => exact ⟨_, reads_of_funct7Row (fun _ => .srl) h, rfl, rfl⟩
  | sra => exact ⟨_, reads_of_funct7Row (fun _ => .sra) h, rfl, rfl⟩
  | or => exact ⟨_, reads_of_funct7Row (fun _ => .or) h, rfl, rfl⟩
  | and => exact ⟨_, reads_of_funct7Row (fun _ => .and) h, rfl, rfl⟩
  | lb => exact ⟨_, reads_of_funct3Row (fun _ => .lb) h, rfl, rfl⟩
  | lh => exact ⟨_, reads_of_funct3Row (fun _ => .lh) h, rfl, rfl⟩
  | lw => exact ⟨_, reads_of_funct3Row (fun _ => .lw) h, rfl, rfl⟩
  | lbu => exact ⟨_, reads_of_funct3Row (fun _ => .lbu) h, rfl, rfl⟩
  | lhu => exact ⟨_, reads_of_funct3Row (fun _ => .lhu) h, rfl, rfl⟩
  | sb => exact ⟨_, reads_of_funct3Row (fun _ => .sb) h, rfl, rfl⟩
  | sh => exact ⟨_, reads_of_funct3Row (fun _ => .sh) h, rfl, rfl⟩
  | sw => exact ⟨_, reads_of_funct3Row (fun _ => .sw) h, rfl, rfl⟩
  | beq => exact ⟨_, reads_of_funct3Row (fun _ => .beq) h, rfl, rfl⟩
  | bne => exact ⟨_, reads_of_funct3Row (fun _ => .bne) h, rfl, rfl⟩
  | blt => exact ⟨_, reads_of_funct3Row (fun _ => .blt) h, rfl, rfl⟩
  | bge => exact ⟨_, reads_of_funct3Row (fun _ => .bge) h, rfl, rfl⟩
  | bltu => exact ⟨_, reads_of_funct3Row (fun _ => .bltu) h, rfl, rfl⟩
  | bgeu => exact ⟨_, reads_of_funct3Row (fun _ => .bgeu) h, rfl, rfl⟩
  | jal => exact ⟨_, .jal (and_opcodeMask_iff.1 h), rfl, rfl⟩
  | jalr => exact ⟨_, .jalr (and_opcodeMask_iff.1 h), rfl, rfl⟩
  | lui => exact ⟨_, .lui (and_opcodeMask_iff.1 h), rfl, rfl⟩
  | auipc => exact ⟨_, .auipc (and_opcodeMask_iff.1 h), rfl, rfl⟩
  | ecall =>
    obtain ⟨im, op⟩ := and_systemMask_iff (o := 0x73#7) (f7 := 0#7) (r2 := 0#5).1 h
    exact ⟨_, .ecall op im, rfl, rfl⟩
  | ebreak =>
    obtain ⟨im, op⟩ := and_systemMask_iff (o := 0x73#7) (f7 := 0#7) (r2 := 1#5).1 h
    exact ⟨_, .ebreak op im, rfl, rfl⟩

/-- Settles O3: no word is two rows', since each row's reading is what the decoder answers. -/
theorem wordIsTheRowItsFixedBitsName : Obligations.WordIsTheRowItsFixedBitsName := by
  refine ⟨fun w i h => row_of_reads (reads_of_decodeWord h), fun w i h => ?row, fun w i j hi hj => ?unique⟩
  case row =>
    obtain ⟨j, hj, hrow⟩ := reads_of_row h
    exact ⟨j, decodeWord_of_reads hj, hrow⟩
  case unique =>
    obtain ⟨a, ha, hma, hfa⟩ := reads_of_row hi
    obtain ⟨b, hb, hmb, hfb⟩ := reads_of_row hj
    obtain rfl : a = b := Except.ok.inj ((decodeWord_of_reads ha).symm.trans (decodeWord_of_reads hb))
    exact ⟨hma.symm.trans hmb, hfa.symm.trans hfb⟩

/-! ### The unsupported words (rule R60), arm by arm of the dispatch tree -/

theorem funct3_cases : ∀ f3 : BitVec 3,
    f3 = 0#3 ∨ f3 = 1#3 ∨ f3 = 2#3 ∨ f3 = 3#3 ∨ f3 = 4#3 ∨ f3 = 5#3 ∨ f3 = 6#3 ∨ f3 = 7#3 := by
  decide

theorem selectLoad_rejects : (∃ r, selectLoad d = .error r) ↔ d.funct3 ∈ [3#3, 6#3, 7#3] := by
  rcases funct3_cases d.funct3 with h | h | h | h | h | h | h | h <;> simp [selectLoad, h]

theorem selectStore_rejects : (∃ r, selectStore d = .error r) ↔ d.funct3 ∈ [3#3, 4#3, 5#3, 6#3, 7#3] := by
  rcases funct3_cases d.funct3 with h | h | h | h | h | h | h | h <;> simp [selectStore, h]

theorem selectBranch_rejects : (∃ r, selectBranch d = .error r) ↔ d.funct3 ∈ [2#3, 3#3] := by
  rcases funct3_cases d.funct3 with h | h | h | h | h | h | h | h <;> simp [selectBranch, h]

/-- Only the two shift selectors look at `funct7`. -/
theorem selectOpImm_rejects :
    (∃ r, selectOpImm d = .error r) ↔
      (d.funct3 = 1#3 ∧ d.funct7 ≠ 0x00#7) ∨ (d.funct3 = 5#3 ∧ d.funct7 ∉ [0x00#7, 0x20#7]) := by
  by_cases h0 : d.funct7 = 0x00#7
  · rcases funct3_cases d.funct3 with h | h | h | h | h | h | h | h <;> simp [selectOpImm, h0, h]
  · by_cases h2 : d.funct7 = 0x20#7
    · rcases funct3_cases d.funct3 with h | h | h | h | h | h | h | h <;> simp [selectOpImm, h2, h]
    · rcases funct3_cases d.funct3 with h | h | h | h | h | h | h | h <;> simp [selectOpImm, h0, h2, h]

theorem selectOp_rejects :
    (∃ r, selectOp d = .error r) ↔
      d.funct7 ∉ [0x00#7, 0x20#7] ∨ (d.funct7 = 0x20#7 ∧ d.funct3 ∉ [0#3, 5#3]) := by
  by_cases h0 : d.funct7 = 0x00#7
  · rcases funct3_cases d.funct3 with h | h | h | h | h | h | h | h <;> simp [selectOp, h0, h]
  · by_cases h2 : d.funct7 = 0x20#7
    · rcases funct3_cases d.funct3 with h | h | h | h | h | h | h | h <;> simp [selectOp, h2, h]
    · simp [selectOp, h0, h2]

theorem selectSystem_rejects : (∃ r, selectSystem d = .error r) ↔ d.imm ≠ 0#32 ∧ d.imm ≠ 1#32 := by
  by_cases h0 : d.imm = 0#32
  · simp [selectSystem, h0]
  · by_cases h1 : d.imm = 1#32
    · simp [selectSystem, h1]
    · simp [selectSystem, h0, h1]

/-- The immediate of the system class is 0 or 1 when the twelve high bits of the word are. -/
theorem system_imm_iff (op : opcodeField w = 0x73#7) :
    ((decodeFields w).imm ≠ 0#32 ∧ (decodeFields w).imm ≠ 1#32) ↔ w.toNat / 2 ^ 20 ∉ [0x000, 0x001] := by
  have himm : (decodeFields w).imm = immI w := decodeImm_iShape (by simp [op])
  have hbits : (w.extractLsb' 20 12).toNat = w.toNat / 2 ^ 20 := by
    rw [toNat_extractLsb', Nat.mod_eq_of_lt (by omega)]
  rw [himm, ne_eq, immI_eq_zero, ne_eq, immI_eq_one, ← BitVec.toNat_inj, ← BitVec.toNat_inj, hbits]
  simp

/-- Settles O4, by the arms of the dispatch tree. -/
theorem unsupportedWordsAreThoseListed : Obligations.UnsupportedWordsAreThoseListed := by
  intro w
  unfold decodeWord select
  split
  next op =>
    rw [selectOpImm_rejects]
    simp [show opcodeField w = 0x13#7 from op, decodeFields]
  next op =>
    rw [selectOp_rejects]
    simp [show opcodeField w = 0x33#7 from op, decodeFields]
  next op =>
    rw [selectLoad_rejects]
    simp [show opcodeField w = 0x03#7 from op, decodeFields]
  next op =>
    rw [selectStore_rejects]
    simp [show opcodeField w = 0x23#7 from op, decodeFields]
  next op =>
    rw [selectBranch_rejects]
    simp [show opcodeField w = 0x63#7 from op, decodeFields]
  next op =>
    simp [show opcodeField w = 0x6F#7 from op]
  next op =>
    simp [show opcodeField w = 0x67#7 from op]
  next op =>
    simp [show opcodeField w = 0x37#7 from op]
  next op =>
    simp [show opcodeField w = 0x17#7 from op]
  next op =>
    rw [selectSystem_rejects, system_imm_iff op]
    simp [show opcodeField w = 0x73#7 from op]
  next hI hR hL hS hB hJ hJr hU hA hSys =>
    refine iff_of_true ⟨_, rfl⟩ (.inl ?_)
    simp only [List.mem_cons, List.not_mem_nil, or_false, not_or]
    exact ⟨hL, hI, hA, hS, hR, hU, hB, hJr, hJ, hSys⟩

/-! ### What a row reads in an encoded word (rules R51, R58), shape by shape -/

section
variable {op : BitVec 7} {f3 : BitVec 3} {f7 : BitVec 7}

theorem reads_encodeI {mk : RegIdx → RegIdx → Word → Instr}
    (row : ∀ w, opcodeField w = op → funct3Field w = f3 → Reads w (mk (rdField w) (rs1Field w) (immI w)))
    (rd rs1 : RegIdx) {imm : Word} (h : wfImm12 imm = true) : Reads (encodeI op f3 rd rs1 imm) (mk rd rs1 imm) := by
  have hr := row _ (opcodeField_encodeI op f3 rd rs1 imm) (funct3Field_encodeI op f3 rd rs1 imm)
  rwa [rdField_encodeI, rs1Field_encodeI, immI_encodeI _ _ _ _ h] at hr

theorem reads_encodeShift {mk : RegIdx → RegIdx → BitVec 5 → Instr}
    (row : ∀ w, opcodeField w = 0x13#7 → funct3Field w = f3 → funct7Field w = f7 →
      Reads w (mk (rdField w) (rs1Field w) (rs2Field w)))
    (rd rs1 : RegIdx) (shamt : BitVec 5) : Reads (encodeShift f7 f3 rd rs1 shamt) (mk rd rs1 shamt) := by
  have hr := row _ (opcodeField_encodeShift f3 f7 rd rs1 shamt) (funct3Field_encodeShift f3 f7 rd rs1 shamt)
    (funct7Field_encodeShift f3 f7 rd rs1 shamt)
  rwa [rdField_encodeShift, rs1Field_encodeShift, rs2Field_encodeShift] at hr

theorem reads_encodeR {mk : RegIdx → RegIdx → RegIdx → Instr}
    (row : ∀ w, opcodeField w = 0x33#7 → funct3Field w = f3 → funct7Field w = f7 →
      Reads w (mk (rdField w) (rs1Field w) (rs2Field w)))
    (rd rs1 rs2 : RegIdx) : Reads (encodeR f7 f3 rd rs1 rs2) (mk rd rs1 rs2) := by
  have hr := row _ (opcodeField_encodeR f3 f7 rd rs1 rs2) (funct3Field_encodeR f3 f7 rd rs1 rs2)
    (funct7Field_encodeR f3 f7 rd rs1 rs2)
  rwa [rdField_encodeR, rs1Field_encodeR, rs2Field_encodeR] at hr

theorem reads_encodeS {mk : RegIdx → RegIdx → Word → Instr}
    (row : ∀ w, opcodeField w = 0x23#7 → funct3Field w = f3 → Reads w (mk (rs1Field w) (rs2Field w) (immS w)))
    (rs1 rs2 : RegIdx) {imm : Word} (h : wfImm12 imm = true) : Reads (encodeS f3 rs1 rs2 imm) (mk rs1 rs2 imm) := by
  have hr := row _ (opcodeField_encodeS f3 rs1 rs2 imm) (funct3Field_encodeS f3 rs1 rs2 imm)
  rwa [rs1Field_encodeS, rs2Field_encodeS, immS_encodeS _ _ _ h] at hr

theorem reads_encodeB {mk : RegIdx → RegIdx → Word → Instr}
    (row : ∀ w, opcodeField w = 0x63#7 → funct3Field w = f3 → Reads w (mk (rs1Field w) (rs2Field w) (immB w)))
    (rs1 rs2 : RegIdx) {imm : Word} (h : wfImmB imm = true) : Reads (encodeB f3 rs1 rs2 imm) (mk rs1 rs2 imm) := by
  have hr := row _ (opcodeField_encodeB f3 rs1 rs2 imm) (funct3Field_encodeB f3 rs1 rs2 imm)
  rwa [rs1Field_encodeB, rs2Field_encodeB, immB_encodeB _ _ _ h] at hr

theorem reads_encodeU {mk : RegIdx → Word → Instr}
    (row : ∀ w, opcodeField w = op → Reads w (mk (rdField w) (immU w)))
    (rd : RegIdx) {imm : Word} (h : wfImmU imm = true) : Reads (encodeU op rd imm) (mk rd imm) := by
  have hr := row _ (opcodeField_encodeU op rd imm)
  rwa [rdField_encodeU, immU_encodeU _ _ h] at hr

theorem reads_encodeJ (rd : RegIdx) {imm : Word} (h : wfImmJ imm = true) : Reads (encodeJ rd imm) (.jal rd imm) := by
  have hr := Reads.jal (opcodeField_encodeJ rd imm)
  rwa [rdField_encodeJ, immJ_encodeJ _ h] at hr

end

/-- The word of a well-formed instruction reads as the instruction, row by row. -/
theorem reads_encode (h : i.wellFormed = true) : Reads (encode i) i := by
  cases i with
  | addi => exact reads_encodeI (fun _ => .addi) _ _ h
  | slti => exact reads_encodeI (fun _ => .slti) _ _ h
  | sltiu => exact reads_encodeI (fun _ => .sltiu) _ _ h
  | xori => exact reads_encodeI (fun _ => .xori) _ _ h
  | ori => exact reads_encodeI (fun _ => .ori) _ _ h
  | andi => exact reads_encodeI (fun _ => .andi) _ _ h
  | slli => exact reads_encodeShift (fun _ => .slli) ..
  | srli => exact reads_encodeShift (fun _ => .srli) ..
  | srai => exact reads_encodeShift (fun _ => .srai) ..
  | add => exact reads_encodeR (fun _ => .add) ..
  | sub => exact reads_encodeR (fun _ => .sub) ..
  | sll => exact reads_encodeR (fun _ => .sll) ..
  | slt => exact reads_encodeR (fun _ => .slt) ..
  | sltu => exact reads_encodeR (fun _ => .sltu) ..
  | xor => exact reads_encodeR (fun _ => .xor) ..
  | srl => exact reads_encodeR (fun _ => .srl) ..
  | sra => exact reads_encodeR (fun _ => .sra) ..
  | or => exact reads_encodeR (fun _ => .or) ..
  | and => exact reads_encodeR (fun _ => .and) ..
  | lb => exact reads_encodeI (fun _ => .lb) _ _ h
  | lh => exact reads_encodeI (fun _ => .lh) _ _ h
  | lw => exact reads_encodeI (fun _ => .lw) _ _ h
  | lbu => exact reads_encodeI (fun _ => .lbu) _ _ h
  | lhu => exact reads_encodeI (fun _ => .lhu) _ _ h
  | sb => exact reads_encodeS (fun _ => .sb) _ _ h
  | sh => exact reads_encodeS (fun _ => .sh) _ _ h
  | sw => exact reads_encodeS (fun _ => .sw) _ _ h
  | beq => exact reads_encodeB (fun _ => .beq) _ _ h
  | bne => exact reads_encodeB (fun _ => .bne) _ _ h
  | blt => exact reads_encodeB (fun _ => .blt) _ _ h
  | bge => exact reads_encodeB (fun _ => .bge) _ _ h
  | bltu => exact reads_encodeB (fun _ => .bltu) _ _ h
  | bgeu => exact reads_encodeB (fun _ => .bgeu) _ _ h
  | jal => exact reads_encodeJ _ h
  | jalr => exact reads_encodeI (fun _ op _ => .jalr op) _ _ h
  | lui => exact reads_encodeU (fun _ => .lui) _ h
  | auipc => exact reads_encodeU (fun _ => .auipc) _ h
  | ecall => exact .ecall rfl rfl
  | ebreak => exact .ebreak rfl rfl

/-- Settles O6: the encoded word reads as the instruction (`reads_encode`), and it is the word of its four bytes. -/
theorem decodeOfEncodeIsTheInstruction : Obligations.DecodeOfEncodeIsTheInstruction := by
  intro i rest hwf
  refine Machine.decodeBytes_eq_ok.2 ⟨?_, rfl⟩
  rw [wordOfBytes_bytesOfWord]
  exact decodeWord_of_reads (reads_encode hwf)

/-! ### What encoding the decoded fields gives back (rule R59), shape by shape -/

section
variable {o f7 : BitVec 7} {f3 : BitVec 3}

theorem encodeI_fields (op : opcodeField w = o) (h3 : funct3Field w = f3) :
    encodeI o f3 (rdField w) (rs1Field w) (immI w) = w := by
  apply BitVec.eq_of_getLsbD_eq
  intro k hk
  rw [encodeI, ← op, ← h3, opcodeField, funct3Field, rdField, rs1Field]
  grind [getLsbD_immI]

theorem encodeShift_fields (op : opcodeField w = 0x13#7) (h3 : funct3Field w = f3) (h7 : funct7Field w = f7) :
    encodeShift f7 f3 (rdField w) (rs1Field w) (rs2Field w) = w := by
  rw [encodeShift, ← op, ← h3, ← h7]
  exact append_fields w

theorem encodeR_fields (op : opcodeField w = 0x33#7) (h3 : funct3Field w = f3) (h7 : funct7Field w = f7) :
    encodeR f7 f3 (rdField w) (rs1Field w) (rs2Field w) = w := by
  rw [encodeR, ← op, ← h3, ← h7]
  exact append_fields w

theorem encodeS_fields (op : opcodeField w = 0x23#7) (h3 : funct3Field w = f3) :
    encodeS f3 (rs1Field w) (rs2Field w) (immS w) = w := by
  apply BitVec.eq_of_getLsbD_eq
  intro k hk
  rw [encodeS, ← op, ← h3, opcodeField, funct3Field, rs1Field, rs2Field]
  grind [getLsbD_immS]

theorem encodeB_fields (op : opcodeField w = 0x63#7) (h3 : funct3Field w = f3) :
    encodeB f3 (rs1Field w) (rs2Field w) (immB w) = w := by
  apply BitVec.eq_of_getLsbD_eq
  intro k hk
  rw [encodeB, ← op, ← h3, opcodeField, funct3Field, rs1Field, rs2Field]
  grind [getLsbD_immB]

theorem encodeU_fields (op : opcodeField w = o) : encodeU o (rdField w) (immU w) = w := by
  apply BitVec.eq_of_getLsbD_eq
  intro k hk
  rw [encodeU, ← op, opcodeField, rdField]
  grind [getLsbD_immU]

theorem encodeJ_fields (op : opcodeField w = 0x6F#7) : encodeJ (rdField w) (immJ w) = w := by
  apply BitVec.eq_of_getLsbD_eq
  intro k hk
  rw [encodeJ, ← op, opcodeField, rdField]
  grind [getLsbD_immJ]

/-- The bits JALR examines (decision D3): the mask clears `funct3` and nothing else. -/
theorem encodeI_and_jalrMask (rd rs1 : RegIdx) (imm : Word) :
    encodeI o f3 rd rs1 imm &&& 0xFFFF8FFF#32 = encodeI o 0#3 rd rs1 imm := by
  have h : (imm.extractLsb' 0 12 ++ rs1 ++ f3 ++ rd ++ o) &&&
      (BitVec.allOnes 12 ++ BitVec.allOnes 5 ++ 0#3 ++ BitVec.allOnes 5 ++ BitVec.allOnes 7) =
        imm.extractLsb' 0 12 ++ rs1 ++ 0#3 ++ rd ++ o := by
    simp only [BitVec.and_append, BitVec.and_zero, BitVec.and_allOnes]
  exact h

end

theorem encode_of_reads (h : Reads w i) : encode i &&& i.examinedMask = w &&& i.examinedMask := by
  cases h with
  | slli op h3 h7 | srli op h3 h7 | srai op h3 h7 => exact congrArg (· &&& _) (encodeShift_fields op h3 h7)
  | add op h3 h7 | sub op h3 h7 | sll op h3 h7 | slt op h3 h7 | sltu op h3 h7 | xor op h3 h7 | srl op h3 h7
  | sra op h3 h7 | or op h3 h7 | and op h3 h7 => exact congrArg (· &&& _) (encodeR_fields op h3 h7)
  | sb op h3 | sh op h3 | sw op h3 => exact congrArg (· &&& _) (encodeS_fields op h3)
  | beq op h3 | bne op h3 | blt op h3 | bge op h3 | bltu op h3 | bgeu op h3 =>
    exact congrArg (· &&& _) (encodeB_fields op h3)
  | jal op => exact congrArg (· &&& _) (encodeJ_fields op)
  | lui op | auipc op => exact congrArg (· &&& _) (encodeU_fields op)
  | jalr op =>
    have hw := congrArg (· &&& 0xFFFF8FFF#32) (encodeI_fields op rfl)
    exact (encodeI_and_jalrMask ..).trans ((encodeI_and_jalrMask ..).symm.trans hw)
  | ecall op im => exact (row_of_reads (.ecall op im)).symm
  | ebreak op im => exact (row_of_reads (.ebreak op im)).symm
  | _ op h3 => exact congrArg (· &&& _) (encodeI_fields op h3)

/-- Settles O7: each encoder puts the decoded fields back where they came from (`encode_of_reads`). -/
theorem encodeOfDecodeIsTheWord : Obligations.EncodeOfDecodeIsTheWord :=
  fun _ _ h => encode_of_reads (reads_of_decodeWord h)

end Sys2Proof

/-! SUPPORT and PROOFS. The statements about the step and the sequencer (spec/40_step_and_dispatch.md): that every step
of a running machine answers a next state, which of the three outcomes of rule R86 it is, and where a completed
instruction goes on. -/

namespace Sys2Proof.Machine

variable {s t : State} {i : Instr}

/-! ### Every instruction, and every step of a running machine, answers a next state (rules R80, R85) -/

theorem load_answers (s : State) (w : Width) (ext : Word → Word) (rd : RegIdx) (ea : Word) :
    ∃ t, s.load w ext rd ea = .next t := by
  by_cases hb : ea.toNat + w.bytes ≤ s.memLen
  · obtain ⟨_, t, ht, -⟩ := load_inBounds (ext := ext) (rd := rd) hb
    exact ⟨t, ht⟩
  · exact ⟨_, load_outOfBounds (Nat.lt_of_not_le hb)⟩

theorem store_answers (s : State) (w : Width) (ea v : Word) : ∃ t, s.store w ea v = .next t := by
  by_cases hb : ea.toNat + w.bytes ≤ s.memLen
  · exact ⟨_, store_inBounds hb⟩
  · exact ⟨_, store_outOfBounds (Nat.lt_of_not_le hb)⟩

theorem execEcall_answers (s : State) : ∃ t, execEcall s = .next t := by
  by_cases h1 : s.reg Config.a7 = Config.exitCall
  · exact ⟨_, execEcall_exit h1⟩
  by_cases h4 : s.reg Config.a7 = Config.writeCall
  · exact ⟨_, execEcall_write h4⟩
  · exact ⟨_, execEcall_other h1 h4⟩

theorem exec_answers (i : Instr) (s : State) : ∃ t, exec i s = .next t := by
  cases i with
  | lb | lh | lw | lbu | lhu => exact load_answers s _ _ _ _
  | sb | sh | sw => exact store_answers s _ _ _
  | ecall => exact execEcall_answers s
  | _ => exact ⟨_, rfl⟩

theorem step_answers (hr : s.run = .running) : ∃ t, step s = .next t := by
  cases hf : s.fetch with
  | none => exact ⟨_, step_noFetch hr hf⟩
  | some w =>
    cases hd : decodeWord w with
    | error r => exact ⟨_, step_noInstr hr hf hd⟩
    | ok i =>
      obtain ⟨t, ht⟩ := exec_answers i s
      exact ⟨t, (step_executed hr hf hd).trans ht⟩

/-- Settles O46: the fetch answers nothing when it cannot have all four bytes. -/
theorem fetchOutOfBoundsStops : Obligations.FetchOutOfBoundsStops :=
  fun _ hr hc => ⟨_, step_noFetch hr (fetch_eq_none.2 hc)⟩

/-- Settles O45: the four bytes at the pc are those of the fetched word. -/
theorem stepExecutesTheDecodedInstruction : Obligations.StepExecutesTheDecodedInstruction :=
  fun _ _ hr hc hd => step_eq_exec hr hc (decodeBytes_eq_ok.1 hd).1

/-! ### The three outcomes of a step (rule R86) -/

/-- `t` is an outcome of a step from `s`: the run goes on, or it exited, or it stopped with a fatal condition. -/
def CompletedOrStopped (s t : State) : Prop :=
  t.run = .running ∨ (SameMachine s t ∧ t.out = s.out ∧ t.isGoodEnd) ∨ (SameMachine s t ∧ s.out <+: t.out ∧ t.isFatal)

theorem completedOrStopped_raise (s : State) (c : Condition) (info : FatalInfo) :
    CompletedOrStopped s (s.raise c info) :=
  .inr (.inr ⟨⟨rfl, rfl, rfl, rfl⟩, List.prefix_rfl, c, info, rfl⟩)

theorem completedOrStopped_exit (s : State) (status : Word) : CompletedOrStopped s (s.exit status) :=
  .inr (.inl ⟨⟨rfl, rfl, rfl, rfl⟩, rfl, status, rfl⟩)

/-- The write call completes, or has emitted some bytes when it stops (rule R139). -/
theorem completedOrStopped_writeCall (hr : s.run = .running) : CompletedOrStopped s s.writeCall := by
  obtain ⟨bs, h | ⟨a, h⟩⟩ := writeCall_cases s
  · exact h ▸ .inl hr
  · exact h ▸ .inr (.inr ⟨⟨rfl, rfl, rfl, rfl⟩, List.prefix_append _ _, _, _, rfl⟩)

theorem exec_completedOrStopped (hr : s.run = .running) (h : exec i s = .next t) : CompletedOrStopped s t := by
  cases exec_effect h with
  | wrote _ _ _ ht | moved _ ht | stored _ _ _ _ _ _ ht => exact ht ▸ .inl hr
  | outside _ _ _ _ ht | badCall _ _ _ ht | breakpoint _ ht => exact ht ▸ completedOrStopped_raise s _ _
  | exited _ _ ht => exact ht ▸ completedOrStopped_exit s _
  | wroteOut _ _ ht => exact ht ▸ completedOrStopped_writeCall hr

theorem step_completedOrStopped (h : step s = .next t) : CompletedOrStopped s t := by
  obtain ⟨hr, heff⟩ := step_effect h
  cases heff with
  | noFetch _ ht | noInstr _ _ _ _ ht => exact ht ▸ completedOrStopped_raise s _ _
  | executed _ _ _ _ he => exact exec_completedOrStopped hr he

/-- Settles O49: a running machine's step answers a next state, and each effect of a step is one of the three outcomes. -/
theorem stepCompletesOrStopsWhole : Obligations.StepCompletesOrStopsWhole := by
  intro s hr
  obtain ⟨t, ht⟩ := step_answers hr
  exact ⟨t, ht, step_completedOrStopped ht⟩

/-! ### The sequencer (rule R87) -/

theorem lessSigned_iff {a b : Word} : lessSigned a b = true ↔ a.toInt < b.toInt := BitVec.slt_iff_toInt_lt

theorem not_lessSigned_iff {a b : Word} : (!lessSigned a b) = true ↔ b.toInt ≤ a.toInt := by
  rw [Bool.not_eq_true', ← Bool.not_eq_true, lessSigned_iff, Int.not_lt]

theorem lessUnsigned_iff {a b : Word} : lessUnsigned a b = true ↔ a.toNat < b.toNat := BitVec.ult_iff_lt

theorem not_lessUnsigned_iff {a b : Word} : (!lessUnsigned a b) = true ↔ b.toNat ≤ a.toNat := by
  rw [Bool.not_eq_true', ← Bool.not_eq_true, lessUnsigned_iff, Nat.not_lt]

/-- A branch whose condition holds goes on at its target (rules R122 to R128). -/
theorem nextPc_of_branchHolds (h : i.branchHolds s) : nextPc i s = s.pcTarget i.offset := by
  cases i with
  | beq => exact if_pos (beq_iff_eq.2 h)
  | bne => exact if_pos (bne_iff_ne.2 h)
  | blt => exact if_pos (lessSigned_iff.2 h)
  | bge => exact if_pos (not_lessSigned_iff.2 h)
  | bltu => exact if_pos (lessUnsigned_iff.2 h)
  | bgeu => exact if_pos (not_lessUnsigned_iff.2 h)
  | _ => exact h.elim

/-- What neither jumps nor takes a branch goes on at the next word (rule R83). -/
theorem nextPc_of_falls_through (hjal : ∀ rd imm, i ≠ .jal rd imm) (hjalr : ∀ rd rs1 imm, i ≠ .jalr rd rs1 imm)
    (h : ¬ i.branchHolds s) : nextPc i s = s.pcPlus4 := by
  cases i with
  | beq => exact if_neg (mt beq_iff_eq.1 h)
  | bne => exact if_neg (mt bne_iff_ne.1 h)
  | blt => exact if_neg (mt lessSigned_iff.1 h)
  | bge => exact if_neg (mt not_lessSigned_iff.1 h)
  | bltu => exact if_neg (mt lessUnsigned_iff.1 h)
  | bgeu => exact if_neg (mt not_lessUnsigned_iff.1 h)
  | jal rd imm => exact absurd rfl (hjal rd imm)
  | jalr rd rs1 imm => exact absurd rfl (hjalr rd rs1 imm)
  | _ => rfl

/-- An instruction that does not stop the run leaves the pc at `nextPc`. -/
theorem exec_pc (h : exec i s = .next t) (ht : t.run = .running) : t.pc = nextPc i s := by
  obtain ⟨u, -, rfl⟩ | hstop := exec_completes_or_stops h
  · rfl
  · exact absurd ht hstop.run

/-- Settles O44: the pc is `nextPc` (`exec_pc`), whose four cases are the jumps, a taken branch and the rest. -/
theorem pcSequencerFollowsTheInstruction : Obligations.PcSequencerFollowsTheInstruction := by
  intro i s t h ht
  rw [exec_pc h ht]
  refine ⟨?jal, ?jalr, nextPc_of_branchHolds, nextPc_of_falls_through⟩
  case jal =>
    rintro rd imm rfl
    rfl
  case jalr =>
    rintro rd rs1 imm rfl
    rfl

end Sys2Proof.Machine

/-! SUPPORT and PROOFS. The statements about the register-immediate ALU instructions (spec/41_alu_immediate.md): the words
of a row, the one register write of an instruction of the shape `writeBack`, and the written value in the spec's own
arithmetic. -/

namespace Sys2Proof

/-! ### The words of a row (rule R58) -/

section
variable {o f7 : BitVec 7} {f3 : BitVec 3} {fixed : Word} {f : Word → Instr}

/-- A row fixed by opcode and funct3. -/
theorem rowReads_of_funct3 (row : ∀ w, opcodeField w = o → funct3Field w = f3 → Reads w (f w))
    (hf : fixed = 0#7 ++ 0#5 ++ 0#5 ++ f3 ++ 0#5 ++ o) : RowReads 0x0000707F#32 fixed f :=
  fun _ h => decodeWord_of_reads (reads_of_funct3Row row (h.trans hf))

/-- A row fixed by opcode, funct3 and funct7. -/
theorem rowReads_of_funct7 (row : ∀ w, opcodeField w = o → funct3Field w = f3 → funct7Field w = f7 → Reads w (f w))
    (hf : fixed = f7 ++ 0#5 ++ 0#5 ++ f3 ++ 0#5 ++ o) : RowReads 0xFE00707F#32 fixed f :=
  fun _ h => decodeWord_of_reads (reads_of_funct7Row row (h.trans hf))

end

end Sys2Proof

namespace Sys2Proof.Machine

variable {s : State} {i : Instr} {rd : RegIdx} {v : Word}

/-! ### The register write -/

/-- An instruction that is a `writeBack` of `v` writes a value with whatever property `v` has, and completes (rule R84). -/
theorem exec_wroteReg {P : Word → Prop} (he : exec i s = s.writeBack rd v) (hv : P v) :
    ∃ t v, exec i s = .next t ∧ WroteReg s t rd v (s.pc + 4#32) ∧ P v := by
  obtain ⟨t, ht, hw⟩ := writeBack_spec s rd v
  exact ⟨t, v, he.trans ht, hw, hv⟩

/-! ### Comparisons and shifts in the spec's arithmetic (rules R92, R93, R100) -/

theorem boolWord_lessSigned (a b : Word) :
    boolWord (lessSigned a b) = if a.toInt < b.toInt then 1#32 else 0#32 :=
  if_congr lessSigned_iff rfl rfl

theorem boolWord_lessUnsigned (a b : Word) :
    boolWord (lessUnsigned a b) = if a.toNat < b.toNat then 1#32 else 0#32 :=
  if_congr lessUnsigned_iff rfl rfl

theorem toNat_shiftLeft (a : Word) (n : BitVec 5) : (shiftLeft a n).toNat = a.toNat * 2 ^ n.toNat % 2 ^ 32 := by
  rw [shiftLeft, BitVec.toNat_shiftLeft, Nat.shiftLeft_eq]

theorem toNat_shiftRightLogical (a : Word) (n : BitVec 5) :
    (shiftRightLogical a n).toNat = a.toNat / 2 ^ n.toNat := by
  rw [shiftRightLogical, BitVec.toNat_ushiftRight, Nat.shiftRight_eq_div_pow]

theorem toInt_shiftRightArith (a : Word) (n : BitVec 5) : (shiftRightArith a n).toInt = a.toInt / 2 ^ n.toNat := by
  rw [shiftRightArith, BitVec.toInt_sshiftRight, Int.shiftRight_eq_div_pow, Nat.cast_pow, Nat.cast_ofNat]

/-! ### The statements -/

/-- Settles O9: word addition is addition modulo 2^32. -/
theorem addiAddsTheImmediate : Obligations.AddiAddsTheImmediate :=
  ⟨rowReads_of_funct3 (fun _ => .addi) rfl, fun _ _ _ _ => exec_wroteReg rfl (BitVec.toNat_add ..)⟩

/-- Settles O10: the word written is that of the comparison (`boolWord_lessSigned`, `boolWord_lessUnsigned`). -/
theorem sltiAndSltiuCompareWithTheImmediate : Obligations.SltiAndSltiuCompareWithTheImmediate := by
  refine ⟨rowReads_of_funct3 (fun _ => .slti) rfl, rowReads_of_funct3 (fun _ => .sltiu) rfl,
    fun rd rs1 imm s => ⟨?slti, ?sltiu⟩⟩
  case slti =>
    rw [← boolWord_lessSigned]
    exact writeBack_spec s rd _
  case sltiu =>
    rw [← boolWord_lessUnsigned]
    exact writeBack_spec s rd _

/-- Settles O11: the word operations act on each bit. -/
theorem xoriOriAndiActOnEachBit : Obligations.XoriOriAndiActOnEachBit := by
  refine ⟨rowReads_of_funct3 (fun _ => .xori) rfl, rowReads_of_funct3 (fun _ => .ori) rfl,
    rowReads_of_funct3 (fun _ => .andi) rfl, fun rd rs1 imm s => ⟨?xori, ?ori, ?andi⟩⟩
  case xori => exact exec_wroteReg rfl fun _ => BitVec.getLsbD_xor
  case ori => exact exec_wroteReg rfl fun _ => BitVec.getLsbD_or
  case andi => exact exec_wroteReg rfl fun _ => BitVec.getLsbD_and

/-- Settles O12: the three shifts as product, quotient and floor of the signed quotient. -/
theorem slliSrliSraiShiftByTheAmount : Obligations.SlliSrliSraiShiftByTheAmount := by
  refine ⟨rowReads_of_funct7 (fun _ => .slli) rfl, rowReads_of_funct7 (fun _ => .srli) rfl,
    rowReads_of_funct7 (fun _ => .srai) rfl, fun rd rs1 shamt s => ⟨?slli, ?srli, ?srai⟩⟩
  case slli => exact exec_wroteReg rfl (toNat_shiftLeft ..)
  case srli => exact exec_wroteReg rfl (toNat_shiftRightLogical ..)
  case srai => exact exec_wroteReg rfl (toInt_shiftRightArith ..)

end Sys2Proof.Machine

/-! SUPPORT and PROOFS. The statements about the register-register ALU instructions (spec/42_alu_register.md): each is a
`writeBack` (`exec_wroteReg`), so what is new here is the signed form of the difference and the shift amount. -/

namespace Sys2Proof.Machine

/-! ### The difference and the shift amount in the spec's arithmetic (rules R100, R103) -/

/-- The difference of two words over the integers, where `BitVec.toNat_sub` adds `2 ^ 32` to stay among the naturals. -/
theorem natCast_toNat_sub (a b : Word) : ((a - b).toNat : Int) = (a.toNat - b.toNat : Int) % 2 ^ 32 := by
  have hb := b.isLt
  rw [BitVec.toNat_sub]
  omega

theorem toNat_shiftAmount (s : State) (rs2 : RegIdx) : (s.shiftAmount rs2).toNat = (s.reg rs2).toNat % 32 :=
  BitVec.toNat_setWidth 5 (s.reg rs2)

/-! ### The statements -/

/-- Settles O13: word addition and subtraction are those of the integers modulo 2^32. -/
theorem addAndSubAreModuloTwoPow32 : Obligations.AddAndSubAreModuloTwoPow32 := by
  refine ⟨rowReads_of_funct7 (fun _ => .add) rfl, rowReads_of_funct7 (fun _ => .sub) rfl,
    fun rd rs1 rs2 s => ⟨?add, ?sub⟩⟩
  case add => exact exec_wroteReg rfl (BitVec.toNat_add ..)
  case sub => exact exec_wroteReg rfl (natCast_toNat_sub ..)

/-- Settles O14: the shifts of O12, by an amount that is the register modulo 32 (`toNat_shiftAmount`). -/
theorem sllSrlSraShiftByTheLowFiveBits : Obligations.SllSrlSraShiftByTheLowFiveBits := by
  refine ⟨rowReads_of_funct7 (fun _ => .sll) rfl, rowReads_of_funct7 (fun _ => .srl) rfl,
    rowReads_of_funct7 (fun _ => .sra) rfl, fun rd rs1 rs2 s => ?_⟩
  rw [← toNat_shiftAmount]
  refine ⟨?sll, ?srl, ?sra⟩
  case sll => exact exec_wroteReg rfl (toNat_shiftLeft ..)
  case srl => exact exec_wroteReg rfl (toNat_shiftRightLogical ..)
  case sra => exact exec_wroteReg rfl (toInt_shiftRightArith ..)

/-- Settles O15: the word written is that of the comparison (`boolWord_lessSigned`, `boolWord_lessUnsigned`). -/
theorem sltAndSltuCompareRegisters : Obligations.SltAndSltuCompareRegisters := by
  refine ⟨rowReads_of_funct7 (fun _ => .slt) rfl, rowReads_of_funct7 (fun _ => .sltu) rfl,
    fun rd rs1 rs2 s => ⟨?slt, ?sltu⟩⟩
  case slt =>
    rw [← boolWord_lessSigned]
    exact writeBack_spec s rd _
  case sltu =>
    rw [← boolWord_lessUnsigned]
    exact writeBack_spec s rd _

/-- Settles O16: the word operations act on each bit. -/
theorem xorOrAndActOnEachBit : Obligations.XorOrAndActOnEachBit := by
  refine ⟨rowReads_of_funct7 (fun _ => .xor) rfl, rowReads_of_funct7 (fun _ => .or) rfl,
    rowReads_of_funct7 (fun _ => .and) rfl, fun rd rs1 rs2 s => ⟨?xor, ?or, ?and⟩⟩
  case xor => exact exec_wroteReg rfl fun _ => BitVec.getLsbD_xor
  case or => exact exec_wroteReg rfl fun _ => BitVec.getLsbD_or
  case and => exact exec_wroteReg rfl fun _ => BitVec.getLsbD_and

end Sys2Proof.Machine

/-! SUPPORT and PROOFS. The statements about loads and stores (spec/43_load_store.md): what an instruction of the shape
`load` or `store` does on each side of the bounds check, and the value a load writes in the spec's own arithmetic. -/

namespace Sys2Proof.Machine

variable {s : State} {i : Instr} {w : Width} {ext : Word → Word} {rd : RegIdx} {ea v : Word} {b lo hi : Byte}

/-! ### The two sides of the bounds check (rules R112, R118) -/

/-- The addressing mode is a sum modulo 2^32. -/
theorem toNat_effAddr (s : State) (rs1 : RegIdx) (imm : Word) :
    (s.effAddr rs1 imm).toNat = ((s.reg rs1).toNat + imm.toNat) % 2 ^ 32 :=
  BitVec.toNat_add ..

/-- A load in bounds completes with one register write, of the extension of the number its bytes are: whatever is known
of the extension of such a word is known of the value written. -/
theorem exec_load_wroteReg {P : Word → Prop} (he : exec i s = s.load w ext rd ea) (hb : ea.toNat + w.bytes ≤ s.memLen)
    (hv : ∀ v : Word, v.toNat = s.mem.readLE ea.toNat w.bytes → P (ext v)) :
    ∃ t v, exec i s = .next t ∧ WroteReg s t rd v (s.pc + 4#32) ∧ P v := by
  obtain ⟨v, t, ht, hread, hw⟩ := load_inBounds (ext := ext) (rd := rd) hb
  exact ⟨t, ext v, he.trans ht, hw, hv v hread⟩

theorem exec_load_raises (he : exec i s = s.load w ext rd ea) (hb : s.memLen < ea.toNat + w.bytes) :
    Raises i s .outOfBounds :=
  ⟨_, he.trans (load_outOfBounds hb)⟩

theorem exec_store_storedBytes (he : exec i s = s.store w ea v) (hwf : s.mem.wf)
    (hb : ea.toNat + w.bytes ≤ s.memLen) :
    ∃ t, exec i s = .next t ∧ StoredBytes s t ea.toNat w.bytes v (s.pc + 4#32) :=
  ⟨_, he.trans (store_inBounds hb), storedBytes_complete hwf ..⟩

theorem exec_store_raises (he : exec i s = s.store w ea v) (hb : s.memLen < ea.toNat + w.bytes) :
    Raises i s .outOfBounds :=
  ⟨_, he.trans (store_outOfBounds hb)⟩

/-! ### The extensions in the spec's arithmetic (rules R113, R114, R116, R117) -/

/-- The half-word of two bytes as a natural. -/
theorem toNat_append_bytes (hi lo : Byte) : (hi ++ lo).toNat = lo.toNat + 256 * hi.toNat := by
  rw [BitVec.toNat_append, ← Nat.shiftLeft_add_eq_or_of_lt lo.isLt, Nat.shiftLeft_eq]
  omega

/-- A word that is the number of a byte has that byte as its low one. -/
theorem setWidth_of_toNat_byte (h : v.toNat = b.toNat) : v.setWidth 8 = b := by
  apply BitVec.eq_of_toNat_eq
  rw [BitVec.toNat_setWidth, h, Nat.mod_eq_of_lt b.isLt]

/-- A word that is the number of two bytes has them as its low half-word. -/
theorem setWidth_of_toNat_half (h : v.toNat = lo.toNat + 256 * hi.toNat) : v.setWidth 16 = hi ++ lo := by
  apply BitVec.eq_of_toNat_eq
  rw [BitVec.toNat_setWidth, h, ← toNat_append_bytes, Nat.mod_eq_of_lt (hi ++ lo).isLt]

theorem toInt_signExtendByte (h : v.toNat = b.toNat) : (signExtendByte v).toInt = b.toInt := by
  rw [signExtendByte, setWidth_of_toNat_byte h, BitVec.toInt_signExtend_of_le (by decide)]

theorem toNat_zeroExtendByte (h : v.toNat = b.toNat) : (zeroExtendByte v).toNat = b.toNat := by
  rw [zeroExtendByte, setWidth_of_toNat_byte h, BitVec.toNat_setWidth_of_le (by decide)]

/-- The sign of a half-word is that of its upper byte. -/
theorem toInt_signExtendHalf (h : v.toNat = lo.toNat + 256 * hi.toNat) :
    (signExtendHalf v).toInt = lo.toNat + 256 * hi.toInt := by
  rw [signExtendHalf, setWidth_of_toNat_half h, BitVec.toInt_signExtend_of_le (by decide), BitVec.toInt_append,
    if_neg (by decide), add_comm]
  rfl

theorem toNat_zeroExtendHalf (h : v.toNat = lo.toNat + 256 * hi.toNat) :
    (zeroExtendHalf v).toNat = lo.toNat + 256 * hi.toNat := by
  rw [zeroExtendHalf, setWidth_of_toNat_half h, BitVec.toNat_setWidth_of_le (by decide), toNat_append_bytes]

/-! ### The statements -/

/-- Settles O17: one byte is read (`readLE_one`), and extended by its sign or by zeros. -/
theorem lbAndLbuLoadOneByte : Obligations.LbAndLbuLoadOneByte := by
  refine ⟨rowReads_of_funct3 (fun _ => .lb) rfl, rowReads_of_funct3 (fun _ => .lbu) rfl, fun rd rs1 imm s ea hea => ?_⟩
  obtain rfl : ea = (s.effAddr rs1 imm).toNat := hea.trans (toNat_effAddr s rs1 imm).symm
  refine ⟨fun hb => ⟨?lb, ?lbu⟩, fun hb => ⟨?lbRaises, ?lbuRaises⟩⟩
  case lb => exact exec_load_wroteReg rfl hb fun _ hv => toInt_signExtendByte (hv.trans (readLE_one ..))
  case lbu => exact exec_load_wroteReg rfl hb fun _ hv => toNat_zeroExtendByte (hv.trans (readLE_one ..))
  case lbRaises => exact exec_load_raises rfl (Nat.lt_succ_of_le hb)
  case lbuRaises => exact exec_load_raises rfl (Nat.lt_succ_of_le hb)

/-- Settles O18: two bytes are read (`readLE_two`), and extended by the sign of the upper one or by zeros. -/
theorem lhAndLhuLoadTwoBytes : Obligations.LhAndLhuLoadTwoBytes := by
  refine ⟨rowReads_of_funct3 (fun _ => .lh) rfl, rowReads_of_funct3 (fun _ => .lhu) rfl, fun rd rs1 imm s ea hea => ?_⟩
  obtain rfl : ea = (s.effAddr rs1 imm).toNat := hea.trans (toNat_effAddr s rs1 imm).symm
  refine ⟨fun hb => ⟨?lh, ?lhu⟩, fun hb => ⟨?lhRaises, ?lhuRaises⟩⟩
  case lh => exact exec_load_wroteReg rfl hb fun _ hv => toInt_signExtendHalf (hv.trans (readLE_two ..))
  case lhu => exact exec_load_wroteReg rfl hb fun _ hv => toNat_zeroExtendHalf (hv.trans (readLE_two ..))
  case lhRaises => exact exec_load_raises rfl hb
  case lhuRaises => exact exec_load_raises rfl hb

/-- Settles O19: the word read is the number of its four bytes (`readLE_four`), and is written as it is. -/
theorem lwLoadsFourBytes : Obligations.LwLoadsFourBytes := by
  refine ⟨rowReads_of_funct3 (fun _ => .lw) rfl, fun rd rs1 imm s ea hea => ?_⟩
  obtain rfl : ea = (s.effAddr rs1 imm).toNat := hea.trans (toNat_effAddr s rs1 imm).symm
  exact ⟨fun hb => exec_load_wroteReg rfl hb fun _ hv => hv.trans (readLE_four ..), exec_load_raises (w := .word) rfl⟩

/-- Settles O20: each width is a `store`, which writes its bytes in bounds and nothing out of bounds. -/
theorem sbShSwStoreTheLowBytes : Obligations.SbShSwStoreTheLowBytes := by
  refine ⟨rowReads_of_funct3 (fun _ => .sb) rfl, rowReads_of_funct3 (fun _ => .sh) rfl,
    rowReads_of_funct3 (fun _ => .sw) rfl, ?_⟩
  rintro rs1 rs2 imm s _ rfl
  exact ⟨toNat_effAddr s rs1 imm,
    exec_store_storedBytes (w := .byte) rfl, exec_store_storedBytes (w := .half) rfl,
    exec_store_storedBytes (w := .word) rfl,
    exec_store_raises (w := .byte) rfl, exec_store_raises (w := .half) rfl, exec_store_raises (w := .word) rfl⟩

end Sys2Proof.Machine

/-! SUPPORT and PROOFS. The statements about the conditional branches (spec/44_branch.md): what an instruction of the shape
`branch` does when its test says what the rule's condition says, and that two of them with opposite tests split. -/

namespace Sys2Proof.Machine

variable {s : State} {i j : Instr} {taken : Bool} {imm : Word}

/-! ### The shape `branch` (rules R122, R129) -/

/-- A branch whose test decides `P` goes on at the target when `P` holds and at the next word when not, and changes
nothing else (rule R122). -/
theorem exec_branch_onlyMoves {P : Prop} [Decidable P] (he : exec i s = s.branch taken (s.pcTarget imm))
    (hP : taken = true ↔ P) :
    ∃ t, exec i s = .next t ∧ OnlyMoves s t (if P then s.pc + imm else s.pc + 4#32) := by
  rw [he, ← if_congr hP rfl rfl]
  exact branch_spec s taken (s.pcTarget imm)

/-- Of two branches with opposite tests and one target, one goes to it and the other to the next word (rule R129). -/
theorem exec_branches_split (hi : exec i s = s.branch taken (s.pcTarget imm))
    (hj : exec j s = s.branch (!taken) (s.pcTarget imm)) :
    ∃ t u, exec i s = .next t ∧ exec j s = .next u ∧
      ((t.pc = s.pc + imm ∧ u.pc = s.pc + 4#32) ∨ (t.pc = s.pc + 4#32 ∧ u.pc = s.pc + imm)) := by
  refine ⟨_, _, hi, hj, ?_⟩
  cases taken with
  | true => exact .inl ⟨rfl, rfl⟩
  | false => exact .inr ⟨rfl, rfl⟩

/-! ### The tests for equality in the spec's arithmetic (rules R123, R124) -/

theorem beq_iff_toNat_eq {a b : Word} : (a == b) = true ↔ a.toNat = b.toNat :=
  beq_iff_eq.trans BitVec.toNat_inj.symm

theorem bne_iff_toNat_ne {a b : Word} : (a != b) = true ↔ ¬ a.toNat = b.toNat :=
  bne_iff_ne.trans BitVec.toNat_ne_iff_ne.symm

/-! ### The statements -/

/-- Settles O21: the tests compare the words as naturals (`beq_iff_toNat_eq`, `bne_iff_toNat_ne`). -/
theorem beqAndBneCompareBitPatterns : Obligations.BeqAndBneCompareBitPatterns := by
  refine ⟨rowReads_of_funct3 (fun _ => .beq) rfl, rowReads_of_funct3 (fun _ => .bne) rfl,
    fun rs1 rs2 imm s => ⟨?beq, ?bne⟩⟩
  case beq => exact exec_branch_onlyMoves rfl beq_iff_toNat_eq
  case bne =>
    rw [← ite_not]
    exact exec_branch_onlyMoves rfl bne_iff_toNat_ne

/-- Settles O22: the test and its negation in two's complement (`lessSigned_iff`, `not_lessSigned_iff`). -/
theorem bltAndBgeCompareSigned : Obligations.BltAndBgeCompareSigned :=
  ⟨rowReads_of_funct3 (fun _ => .blt) rfl, rowReads_of_funct3 (fun _ => .bge) rfl, fun _ _ _ _ =>
    ⟨exec_branch_onlyMoves rfl lessSigned_iff, exec_branch_onlyMoves rfl not_lessSigned_iff⟩⟩

/-- Settles O23: the test and its negation over the naturals (`lessUnsigned_iff`, `not_lessUnsigned_iff`). -/
theorem bltuAndBgeuCompareUnsigned : Obligations.BltuAndBgeuCompareUnsigned :=
  ⟨rowReads_of_funct3 (fun _ => .bltu) rfl, rowReads_of_funct3 (fun _ => .bgeu) rfl, fun _ _ _ _ =>
    ⟨exec_branch_onlyMoves rfl lessUnsigned_iff, exec_branch_onlyMoves rfl not_lessUnsigned_iff⟩⟩

/-- Settles O24: the second test of each pair is the negation of the first, and so is its condition. -/
theorem complementaryBranchesSplit : Obligations.ComplementaryBranchesSplit := by
  intro rs1 rs2 imm s i j h
  simp only [List.mem_cons, List.not_mem_nil, or_false, Prod.mk.injEq] at h
  obtain ⟨rfl, rfl⟩ | ⟨rfl, rfl⟩ | ⟨rfl, rfl⟩ := h
  case inl => exact ⟨Int.not_le.symm, exec_branches_split rfl rfl⟩
  case inr.inl => exact ⟨Nat.not_le.symm, exec_branches_split rfl rfl⟩
  case inr.inr => exact ⟨not_ne_iff.symm, exec_branches_split rfl rfl⟩

end Sys2Proof.Machine

/-! SUPPORT and PROOFS. The statements about the jumps and the upper immediates (spec/45_jump_upper.md): the words of a row
fixed by its opcode alone. JAL and JALR are a `link` (`link_spec`), LUI and AUIPC a `writeBack`. -/

namespace Sys2Proof

/-! ### The words of a row (rule R58) -/

/-- A row fixed by opcode. -/
theorem rowReads_of_opcode {o : BitVec 7} {fixed : Word} {f : Word → Instr}
    (row : ∀ w, opcodeField w = o → Reads w (f w)) (hf : fixed = 0#7 ++ 0#5 ++ 0#5 ++ 0#3 ++ 0#5 ++ o) :
    RowReads 0x0000007F#32 fixed f :=
  fun w h => decodeWord_of_reads (row w (and_opcodeMask_iff.1 (h.trans hf)))

end Sys2Proof

namespace Sys2Proof.Machine

/-! ### The target of JALR in the spec's arithmetic (rule R131) -/

theorem toNat_indirectTarget (s : State) (rs1 : RegIdx) (imm : Word) :
    (s.indirectTarget rs1 imm).toNat = ((s.reg rs1).toNat + imm.toNat) % 2 ^ 32 / 2 * 2 := by
  rw [State.indirectTarget, toNat_clearLowBit, BitVec.toNat_add]

/-! ### The statements -/

/-- Settles O25: JAL is a `link` to the pc-relative target. -/
theorem jalLinksAndJumpsRelative : Obligations.JalLinksAndJumpsRelative :=
  ⟨rowReads_of_opcode (fun _ => .jal) rfl, fun rd imm s => link_spec s rd (s.pcTarget imm)⟩

/-- Settles O26: JALR is a `link` to the even target (`toNat_indirectTarget`), taken from the state before the link is
written. -/
theorem jalrLinksAndJumpsToTheEvenSum : Obligations.JalrLinksAndJumpsToTheEvenSum := by
  refine ⟨rowReads_of_opcode (fun _ => .jalr) rfl, fun rd rs1 imm s => ?_⟩
  obtain ⟨t, ht, hw⟩ := link_spec s rd (s.indirectTarget rs1 imm)
  exact ⟨t, s.indirectTarget rs1 imm, ht, hw, toNat_indirectTarget s rs1 imm⟩

/-- Settles O27: LUI is a `writeBack` of the immediate. -/
theorem luiLoadsTheUpperImmediate : Obligations.LuiLoadsTheUpperImmediate :=
  ⟨rowReads_of_opcode (fun _ => .lui) rfl, fun rd imm s => writeBack_spec s rd imm⟩

/-- Settles O28: AUIPC is a `writeBack` of a word sum, which is the sum modulo 2^32. -/
theorem auipcAddsTheUpperImmediateToThePc : Obligations.AuipcAddsTheUpperImmediateToThePc :=
  ⟨rowReads_of_opcode (fun _ => .auipc) rfl, fun _ _ _ => exec_wroteReg rfl (BitVec.toNat_add ..)⟩

end Sys2Proof.Machine

/-! SUPPORT and PROOFS. The statements about the system class and the environment calls (spec/46_system.md): which
instruction a word with opcode 0x73 is, what each call number does (`execEcall_exit`, `execEcall_write`,
`execEcall_other`), and the two sides of the write call's bounds check. -/

namespace Sys2Proof

/-! ### The words of the system class (rules R58, R136) -/

section
variable {w : Word}

/-- A word with opcode 0x73 is decoded by the system arm of the dispatch tree. -/
theorem decodeWord_system (op : opcodeField w = 0x73#7) : decodeWord w = selectSystem (decodeFields w) := by
  simp only [decodeWord, select, decodeFields, op]

theorem decodeWord_system_undefined (op : opcodeField w = 0x73#7) (h0 : immI w ≠ 0#32) (h1 : immI w ≠ 1#32) :
    ∃ r, decodeWord w = .error r := by
  have himm : (decodeFields w).imm = immI w := decodeImm_iShape (by simp [op])
  rw [decodeWord_system op, selectSystem_rejects, himm]
  exact ⟨h0, h1⟩

/-- A row fixed by opcode and by the twelve bits of the immediate. -/
theorem rowReads_of_system {o f7 : BitVec 7} {r2 : BitVec 5} {fixed : Word} {f : Word → Instr}
    (row : ∀ w, opcodeField w = o → w.extractLsb' 20 12 = f7 ++ r2 → Reads w (f w))
    (hf : fixed = f7 ++ r2 ++ 0#5 ++ 0#3 ++ 0#5 ++ o) : RowReads 0xFFF0007F#32 fixed f := by
  intro w h
  obtain ⟨im, op⟩ := and_systemMask_iff.1 (h.trans hf)
  exact decodeWord_of_reads (row w op im)

end

end Sys2Proof

namespace Sys2Proof.Machine

variable {s : State} {i : Instr}

/-! ### Executing a word, by what it decodes to (rules R82, R153) -/

theorem execWord_executed {w : Word} (hd : decodeWord w = .ok i) (s : State) : execWord w s = exec i s := by
  simp only [execWord, hd]

theorem execWord_noInstr {w : Word} {r : DecodeReject} (hd : decodeWord w = .error r) (s : State) :
    execWord w s = .next (s.raise .unsupportedInstruction (.word w)) := by
  simp only [execWord, hd]

/-! ### The two sides of the write call's bounds check (rule R139) -/

theorem writeCall_inBounds (h : s.bufferInBounds) :
    s.writeCall = ({ s with out := s.out ++ s.bufferBytes } : State).complete s.pcPlus4 := by
  rw [State.writeCall, emitBytes_inBounds h]
  rfl

/-- The emission stops at an address past memory, and has changed OUT alone. -/
theorem writeCall_outOfBounds (h : ¬ s.bufferInBounds) :
    ∃ bs a, s.writeCall = ({ s with out := s.out ++ bs } : State).raiseOutOfBounds a .byte := by
  obtain ⟨h0, hb⟩ := not_or.1 h
  obtain ⟨bs, hout⟩ := emitBytes_frame (s.reg Config.a2).toNat (s.reg Config.a1).toNat s
  have hemit : State.emitBytes (s.reg Config.a2).toNat (s.reg Config.a1).toNat s =
      ({ s with out := s.out ++ bs }, some (max (s.reg Config.a1).toNat s.memLen)) :=
    Prod.ext hout (emitBytes_outOfBounds h0 (Nat.lt_of_not_le hb))
  exact ⟨bs, _, by rw [State.writeCall, hemit]⟩

/-! ### The statements -/

/-- Settles O38, by `exec_answers`: loads, stores and ECALL answer on either side of their tests, the others have one
outcome. -/
theorem everyInstructionAnswersANextState : Obligations.EveryInstructionAnswersANextState := exec_answers

/-- Settles O29: the immediate is 0, 1 or another exactly when the twelve high bits of the word are. -/
theorem systemClassSelectsOnTheImmediate : Obligations.SystemClassSelectsOnTheImmediate := by
  refine fun w s op => ⟨fun h0 => ?ecall, fun h1 => ?ebreak, fun h0 h1 => ?undefined⟩
  case ecall => exact execWord_executed (decodeWord_of_reads (.ecall op ((immI_eq_zero w).1 h0))) s
  case ebreak => exact execWord_executed (decodeWord_of_reads (.ebreak op ((immI_eq_one w).1 h1))) s
  case undefined =>
    obtain ⟨r, hd⟩ := decodeWord_system_undefined op h0 h1
    exact ⟨_, execWord_noInstr hd s⟩

/-- Settles O30: the exit call sets `run` alone. -/
theorem exitCallEndsTheRun : Obligations.ExitCallEndsTheRun := fun _ h => execEcall_exit h

/-- Settles O31: in bounds the write call completes from the state with the buffer's bytes emitted. -/
theorem writeCallEmitsTheBuffer : Obligations.WriteCallEmitsTheBuffer := by
  intro s h4 hb
  refine ⟨_, (execEcall_write h4).trans (congrArg _ (writeCall_inBounds hb)), rfl, ?_⟩
  exact onlyMoves_complete { s with out := s.out ++ s.bufferBytes } s.pcPlus4

/-- Settles O32: out of bounds the write call raises from a state that differs in OUT alone. -/
theorem writeCallOutOfBoundsStops : Obligations.WriteCallOutOfBoundsStops := by
  intro s h4 hb
  obtain ⟨bs, a, hw⟩ := writeCall_outOfBounds hb
  exact ⟨_, _, (execEcall_write h4).trans (congrArg _ hw), ⟨rfl, rfl, rfl, rfl⟩, rfl, List.prefix_append _ _⟩

/-- Settles O33: a call number that is neither of the two is raised. -/
theorem otherCallNumbersStop : Obligations.OtherCallNumbersStop := fun _ h1 h4 => ⟨_, execEcall_other h1 h4⟩

/-- Settles O34: the row of EBREAK fixes the immediate at 1, and EBREAK raises from every state. -/
theorem ebreakStopsAtItsAddress : Obligations.EbreakStopsAtItsAddress :=
  ⟨rowReads_of_system (f7 := 0#7) (r2 := 1#5) (fun _ => .ebreak) rfl, fun _ => ⟨_, rfl⟩⟩

end Sys2Proof.Machine

/-! SUPPORT and PROOFS. The statements about the fatal conditions (spec/60_exceptions.md): a word that is no instruction
stops the run, and what a stopped run says of the step that stopped it. -/

namespace Sys2Proof.Machine

variable {s t : State} {i : Instr}

/-! ### The causes of a stop (rules R88, R150) -/

/-- What in `s` makes its step end the run with a given status. -/
inductive StopCause (s : State) : RunStatus → Prop where
  /-- the exit call (rule R138) -/
  | exitCall (hc : s.canFetch) (hd : decodeWord s.wordAtPc = .ok .ecall) (h1 : s.reg 17#5 = 1#32) :
      StopCause s (.exited (s.reg 10#5))
  /-- an EBREAK (rule R155) -/
  | breakpoint (hc : s.canFetch) (hd : decodeWord s.wordAtPc = .ok .ebreak) (info : FatalInfo) :
      StopCause s (.fatal .breakpoint info)
  /-- a call number that is neither of the two (rule R154) -/
  | otherCall (hc : s.canFetch) (hd : decodeWord s.wordAtPc = .ok .ecall) (h1 : s.reg 17#5 ≠ 1#32)
      (h4 : s.reg 17#5 ≠ 4#32) (info : FatalInfo) : StopCause s (.fatal .unsupportedSyscall info)
  /-- a word that is no instruction (rule R153) -/
  | noInstr (hc : s.canFetch) {r : DecodeReject} (hd : decodeWord s.wordAtPc = .error r) (info : FatalInfo) :
      StopCause s (.fatal .unsupportedInstruction info)
  /-- a fetch past memory (rule R152) -/
  | noFetch (hc : ¬ s.canFetch) (info : FatalInfo) : StopCause s (.fatal .outOfBounds info)
  /-- a load or store past memory (rule R152) -/
  | access (hc : s.canFetch) {i : Instr} (hd : decodeWord s.wordAtPc = .ok i) {addr n : Nat}
      (ha : i.access s = some (addr, n)) (hb : s.memLen < addr + n) (info : FatalInfo) :
      StopCause s (.fatal .outOfBounds info)
  /-- a write call with a buffer past memory (rule R152) -/
  | buffer (hc : s.canFetch) (hd : decodeWord s.wordAtPc = .ok .ecall) (h4 : s.reg 17#5 = 4#32)
      (hb : ¬ s.bufferInBounds) (info : FatalInfo) : StopCause s (.fatal .outOfBounds info)

/-- A write call that does not complete has a buffer past memory. -/
theorem not_bufferInBounds_of_writeCall_stops (hr : s.run = .running) (h : s.writeCall.run ≠ .running) :
    ¬ s.bufferInBounds := by
  intro hb
  rw [writeCall_inBounds hb] at h
  exact h hr

/-- An executed instruction that ends the run was ECALL, EBREAK, or a load or store past memory. -/
theorem exec_stopCause (hr : s.run = .running) (hc : s.canFetch) (hd : decodeWord s.wordAtPc = .ok i)
    (h : exec i s = .next t) (hstop : t.run ≠ .running) : StopCause s t.run := by
  cases exec_effect h with
  | wrote _ _ _ ht | moved _ ht | stored _ _ _ _ _ _ ht =>
    subst ht
    exact absurd hr hstop
  | outside a w ha hb ht =>
    subst ht
    exact .access hc hd ha hb _
  | exited hi h1 ht =>
    subst hi ht
    exact .exitCall hc hd h1
  | wroteOut hi h4 ht =>
    subst hi ht
    have hb := not_bufferInBounds_of_writeCall_stops hr hstop
    obtain ⟨bs, a, hw⟩ := writeCall_outOfBounds hb
    rw [hw]
    exact .buffer hc hd h4 hb _
  | badCall hi h1 h4 ht =>
    subst hi ht
    exact .otherCall hc hd h1 h4 _
  | breakpoint hi ht =>
    subst hi ht
    exact .breakpoint hc hd _

/-- A step that ends the run has a cause for the status it ends with. -/
theorem step_stopCause (h : step s = .next t) (hstop : t.run ≠ .running) : StopCause s t.run := by
  obtain ⟨hr, heff⟩ := step_effect h
  cases heff with
  | noFetch hf ht =>
    subst ht
    exact .noFetch (Nat.not_le_of_lt hf) _
  | noInstr w r hf hd ht =>
    obtain ⟨hc, rfl⟩ := fetch_eq_some.1 hf
    subst ht
    exact .noInstr hc hd _
  | executed w i hf hd he =>
    obtain ⟨hc, rfl⟩ := fetch_eq_some.1 hf
    exact exec_stopCause hr hc hd he hstop

/-! ### The statements -/

/-- Settles O50: the causes of a step's stop (`step_stopCause`), read off by the status it ended with. -/
theorem eachStopHasItsCause : Obligations.EachStopHasItsCause := by
  intro s t h hstop
  have hcause := step_stopCause h hstop
  refine ⟨fun status e => ?exited, fun info e => ?breakpoint, fun info e => ?unsupportedSyscall,
    fun info e => ?unsupportedInstruction, fun info e => ?outOfBounds⟩ <;> rw [e] at hcause
  case exited =>
    cases hcause with
    | exitCall hc hd h1 => exact ⟨hc, hd, h1, rfl⟩
  case breakpoint =>
    cases hcause with
    | breakpoint hc hd => exact ⟨hc, hd⟩
  case unsupportedSyscall =>
    cases hcause with
    | otherCall hc hd h1 h4 => exact ⟨hc, hd, h1, h4⟩
  case unsupportedInstruction =>
    cases hcause with
    | noInstr hc hd => exact ⟨hc, _, hd⟩
  case outOfBounds =>
    cases hcause with
    | noFetch hc => exact .inl hc
    | access hc hd ha hb => exact .inr ⟨hc, _, hd, .inl ⟨_, _, ha, hb⟩⟩
    | buffer hc hd h4 hb => exact .inr ⟨hc, _, hd, .inr ⟨rfl, h4, hb⟩⟩

/-- Settles O47: all four bytes exist, so the fetch answers the word at the pc, and the step of a word that is no
instruction raises from the state before the fetch. -/
theorem unsupportedInstructionStops : Obligations.UnsupportedInstructionStops :=
  fun _ _ hr hc hd => ⟨_, step_noInstr hr (fetch_eq_some.2 ⟨hc, rfl⟩) hd⟩

end Sys2Proof.Machine

/-! SUPPORT and PROOFS. The statements about reset with any arguments (spec/70_reset_and_hazards.md) and about the example
words of the test vectors (spec/95_test_vectors.md). -/

namespace Sys2Proof.Machine

/-! ### The invariant after reset (rules R170 to R173) -/

/-- Only accepted arguments give a state (decision D13). -/
theorem accepted_of_resetWith {a : ResetArgs} {s : State} (h : State.resetWith a = .next s) :
    a.memSize ≤ Config.addressSpace ∧ a.base.toNat + a.image.length ≤ Config.addressSpace := by
  by_contra ha
  rw [resetWith_refused ha] at h
  cases h

/-- The memory length covers both the initial memory and the image, however far the image reaches. -/
theorem mem_resetState_within {a : ResetArgs} {c : Host.Cell} (h : c ∈ (resetState a).mem) :
    c.1 < (resetState a).memLen := by
  obtain hinit | himage := mem_loadImage h
  · exact lt_max_of_lt_left (mem_initMemory hinit)
  · exact lt_max_of_lt_right himage

theorem inv_resetState {a : ResetArgs}
    (h : a.memSize ≤ Config.addressSpace ∧ a.base.toNat + a.image.length ≤ Config.addressSpace) :
    (resetState a).Inv where
  zero := reg_resetState_zero a
  wf := wf_loadImage (wf_initMemory _ _) _ _
  within _ := mem_resetState_within
  len := max_le h.1 h.2

/-- Settles O55: the state is `resetState` of accepted arguments. -/
theorem resetWithAnyArgumentsMeetsTheInvariant : Obligations.ResetWithAnyArgumentsMeetsTheInvariant := by
  intro a s h
  rw [eq_resetState h]
  exact inv_resetState (accepted_of_resetWith h)

end Sys2Proof.Machine

namespace Sys2Proof

/-! ### The example words (spec/95_test_vectors.md section 2.1) -/

/-- Settles O8: each word has the fixed fields of its row (rule R58), and the operands are the fields the row reads. -/
theorem exampleWordsDecodeAsWritten : Obligations.ExampleWordsDecodeAsWritten :=
  ⟨decodeWord_of_reads (.addi rfl rfl), decodeWord_of_reads (.srai rfl rfl rfl), decodeWord_of_reads (.sub rfl rfl rfl),
    decodeWord_of_reads (.lw rfl rfl), decodeWord_of_reads (.sw rfl rfl), decodeWord_of_reads (.beq rfl rfl),
    decodeWord_of_reads (.jal rfl), decodeWord_of_reads (.jalr rfl), decodeWord_of_reads (.lui rfl),
    decodeWord_of_reads (.ecall rfl rfl), decodeWord_of_reads (.ebreak rfl rfl)⟩

end Sys2Proof
